-- ==== Sys2Proof/Config.lean ====
section
/-! DEFINITION. What an implementation of the engine may choose (00_scope.md R6). -/

namespace Sys2Proof

/-- `RQ_DEPTH` (R6, 70_reset_and_hazards.md R113): how many response words the engine buffers before it stops taking
command words. The spec leaves it open (any value >= 0), so nothing in Lean can see its value (log entry 2). It decides
only whether a command word is taken now, never what any response or state element is. -/
opaque Config.rqDepth : Nat

/-- The unroll depths R6 and R93 allow for the permutation network, per clock step: half a double round, or
`DR_PER_STEP` = 1, 2, 5 or 10 double rounds. The choice reaches no functional rule (R93), so the machine does not read
it; statements quantify over it. -/
inductive UnrollDepth where
  | half
  | one
  | two
  | five
  | ten
  deriving DecidableEq, Repr

end Sys2Proof
end

