-- ==== Sys2Proof/Word.lean ====
section
/-! DEFINITION. The three value widths of the spec (00_scope.md R5, R7) and the two arrays built of them. Arithmetic on
them is `BitVec`'s own: addition wraps modulo 2^32 and 2^64, shifts are logical (R7). -/

namespace Sys2Proof

/-- A word: an unsigned 32-bit value (R5, R7). -/
abbrev Word := BitVec 32

/-- A counter: an unsigned 64-bit value (R5, R7). -/
abbrev Counter := BitVec 64

/-- A byte: an unsigned 8-bit value (R7). -/
abbrev Byte := BitVec 8

/-- Sixteen words: HashState, PermutationInput, PermutationOutput, the working registers (R5, R11, R20). -/
abbrev Block := Vector Word 16

/-- Thirty-two bytes: one chunk, and the staging buffer (R5, R19). -/
abbrev Chunk := Vector Byte 32

end Sys2Proof
end

