-- ==== Sys2Proof/Machine/State.lean ====
section
/-! DEFINITION. The engine's state, every element of 10_state.md R11 to R22, its reset values (R23), and the reasons for
which a step can stop. -/

namespace Sys2Proof.Machine

/-- PH: whether the next command-stream word is a header or a data word (R18). -/
inductive Phase where
  | hdr
  | data
  deriving DecidableEq, Repr

/-- One move of the host, the only other agent (00_scope.md R2): everything that enters the engine or takes something
from it. -/
inductive HostMove where
  /-- The host sends this word on the command stream (20_memory.md R26). -/
  | word (w : Word)
  /-- The host accepts the response word at the head of RQ (20_memory.md R27). -/
  | accept
  /-- The host asserts and releases the reset input (70_reset_and_hazards.md R107). -/
  | reset
  deriving DecidableEq, Repr

/-- The engine's state. The last field is the model's own: the host's moves still to come, in the order in which they
take place (log entry 1). PermutationInput and the working registers (R20) hold no value between steps and are no field
(log entry 4). -/
@[ext]
structure State where
  /-- HashState H[0..15] (R11). -/
  h : Block
  /-- BlockCounter BC: bytes absorbed since the session began (R12). -/
  bc : Counter
  /-- NonceCounter NC: blocks absorbed since the session began (R13). -/
  nc : Counter
  /-- INIT: HashState holds a value (R14). -/
  init : Bool
  /-- ERR: a malformed header was received since reset (R16). -/
  err : Bool
  /-- ERRCODE: the code of the first such header (R16). -/
  errcode : BitVec 4
  /-- PH (R18). -/
  ph : Phase
  /-- REM: payload bytes of the current UPDATE still to arrive (R18). -/
  rem : BitVec 24
  /-- DISC: the current payload is being discarded (R18). -/
  disc : Bool
  /-- Staging buffer SB[0..31] (R19). -/
  sb : Chunk
  /-- SBN: how many bytes of SB are filled (R19). -/
  sbn : BitVec 6
  /-- RQ: response words produced and not yet accepted, oldest first (R21). -/
  rq : List Word
  /-- The host's moves still to come. -/
  inp : List HostMove
  deriving DecidableEq, Repr

/-- Why a step does not take place. None of these is an error of the engine: 70_reset_and_hazards.md R112 and R113 call
the first two stuck, that is, no step; `Host.Outcome` has no fourth outcome, so being stuck is a stop with a name
(log entry 5). Command errors are no faults: they are recorded and the engine goes on (60_exceptions.md R97). -/
inductive Fault where
  /-- Raised by the step when the host makes no further move: the engine is idle, or waits inside an UPDATE (R106,
  R112). Safe: nothing is claimed of a run that stops here. -/
  | stuckNoHostMove
  /-- Raised by the step when a command word is offered and more than RQ_DEPTH response words wait (R113). Safe. -/
  | stuckResponsesNotAccepted
  /-- Raised by the step when the host's next move is to accept a response word and RQ is empty (00_scope.md R9: a
  transfer needs both sides). Safe. -/
  | stuckNoResponse
  deriving DecidableEq, Repr

/-- What the model refuses. -/
inductive Refusal where
  /-- Raised by `exec` for an instruction that has no meaning yet. Safe. No arm raises it. -/
  | notModelled (mnemonic : String)
  /-- Raised by the step for a payload byte that has no place in SB: SBN >= 32 between steps. 93_implementation_defined.md
  U14 lets a model refuse it and calls it unreachable. Safe. -/
  | stagingOverrun
  deriving DecidableEq, Repr

/-- The state right after reset, every element as R23 gives it; the host's moves are what the model's user places
there (log entries 1 and 3). -/
def State.reset : State where
  h := Vector.replicate 16 0
  bc := 0
  nc := 0
  init := false
  err := false
  errcode := 0
  ph := .hdr
  rem := 0
  disc := false
  sb := Vector.replicate 32 0
  sbn := 0
  rq := []
  inp := []

end Sys2Proof.Machine
end

