-- ==== Sys2Proof/Syntax.lean ====
section
/-! DEFINITION. The commands of spec/opcode_table.json, one constructor per row, and the command errors of
60_exceptions.md R95. Malformed headers of legal opcodes (30_encoding.md R47, R48) are no row of the table: the decoder
rejects them by a `CmdError`, whose effect is the machine's (40_session_commands.md R60). -/

namespace Sys2Proof

/-- A command as its header names it (30_encoding.md R42, R45). UPDATE's data words follow on the command stream and are
consumed one step each (40_session_commands.md R53, R57). -/
inductive Instr where
  /-- OP 0x0 (R54). -/
  | nop
  /-- OP 0x1 (R55). -/
  | start
  /-- OP 0x2; `len` is the payload length in bytes (R56). -/
  | update (len : BitVec 24)
  /-- OP 0x3 (R80). -/
  | rddig
  /-- OP 0x4 (R83). -/
  | rdhex
  /-- OP 0x5 (R63). -/
  | rdstat
  /-- OP 0x6 or 0x7, illegal; RSV and LEN are not checked (R46). -/
  | reserved67 (op : BitVec 4) (rsv : BitVec 4) (len : BitVec 24)
  /-- OP 0x8 to 0xF, illegal; RSV and LEN are not checked (R46). -/
  | reserved8F (op : BitVec 4) (rsv : BitVec 4) (len : BitVec 24)
  deriving DecidableEq, Repr

/-- The causes of a command error, in the order in which they are checked (60_exceptions.md R95, R98). -/
inductive CmdError where
  /-- ILLEGAL_OPCODE: OP in 0x6..0xF. -/
  | illegalOpcode
  /-- RESERVED_BITS: a legal OP and RSV nonzero. -/
  | reservedBits
  /-- LEN_NOT_ZERO: a legal OP other than UPDATE, RSV = 0 and LEN nonzero. -/
  | lenNotZero
  deriving DecidableEq, Repr

end Sys2Proof
end

