-- ==== Sys2Proof/Machine/Flags.lean ====
section
/-! DEFINITION. The flags and the STATUS word (10_state.md R16, R17), and the error codes (60_exceptions.md R95). -/

namespace Sys2Proof.Machine

/-- The code that CmdError writes to ERRCODE (R95). -/
def errorCode : CmdError → BitVec 4
  | .illegalOpcode => 1
  | .reservedBits => 2
  | .lenNotZero => 3

/-- A one-bit flag as a word (R17's zext_32). -/
def flagWord (b : Bool) : Word := (BitVec.ofBool b).setWidth 32

/-- The STATUS word: INIT in bit 0, ERR in bit 1, ERRCODE in bits 7:4, every other bit 0 (R17). -/
def statusWord (s : State) : Word :=
  (s.errcode.setWidth 32 <<< 4) ||| (flagWord s.err <<< 1) ||| flagWord s.init

end Sys2Proof.Machine
end

