-- ==== Sys2Proof/WellFormed.lean ====
section
/-! DEFINITION. Which terms of `Instr` stand for a header: the two reserved rows hold only the opcodes of their own row of
spec/opcode_table.json. Every other field's type already has exactly the header's width (30_encoding.md R42). -/

namespace Sys2Proof

/-- RESERVED_6_7 holds opcode 6 or 7, RESERVED_8_F opcodes 8 to 15 (30_encoding.md R45, R46). -/
def Instr.wellFormed : Instr → Bool
  | .nop => true
  | .start => true
  | .update _ => true
  | .rddig => true
  | .rdhex => true
  | .rdstat => true
  | .reserved67 op _ _ => op == 6 || op == 7
  | .reserved8F op _ _ => decide (8 ≤ op.toNat)

end Sys2Proof
end

