-- ==== Sys2Proof/Decode.lean ====
section
/-! DEFINITION. The header's fields, the decoder (30_encoding.md R42, R44, R49) and the encoder. -/

namespace Sys2Proof

/-- OP = h[3:0] (R42). -/
def opOf (h : Word) : BitVec 4 := h.extractLsb' 0 4

/-- RSV = h[7:4] (R42). -/
def rsvOf (h : Word) : BitVec 4 := h.extractLsb' 4 4

/-- LEN = h[31:8], an unsigned byte count (R42, R43). -/
def lenOf (h : Word) : BitVec 24 := h.extractLsb' 8 24

/-- The header assembled from its three fields (R42). -/
def headerWord (len : BitVec 24) (rsv op : BitVec 4) : Word :=
  (len.setWidth 32 <<< 8) ||| (rsv.setWidth 32 <<< 4) ||| op.setWidth 32

/-- NDATA(h): the number of data words that follow header `h`, malformed or not (R44). -/
def ndata (h : Word) : Nat :=
  if opOf h = 2 then ((lenOf h).toNat + 3) / 4 else 0

/-- The command of a header whose three checks have passed, by its opcode (R45). Reserved opcodes have their own rows. -/
def commandOf (op rsv : BitVec 4) (len : BitVec 24) : Instr :=
  match op.toNat with
  | 0 => .nop
  | 1 => .start
  | 2 => .update len
  | 3 => .rddig
  | 4 => .rdhex
  | 5 => .rdstat
  | 6 => .reserved67 op rsv len
  | 7 => .reserved67 op rsv len
  | _ => .reserved8F op rsv len

/-- Decode (R49): the opcode is looked at first, then RSV, then LEN. An illegal opcode is a command of its own row (its
meaning raises CmdError(1)); the other two malformed forms are rejected here by name. Every word decodes to exactly one
command or one error. -/
def decode (h : Word) : Except CmdError Instr :=
  if 6 ≤ (opOf h).toNat then .ok (commandOf (opOf h) (rsvOf h) (lenOf h))
  else if rsvOf h ≠ 0 then .error .reservedBits
  else if opOf h ≠ 2 ∧ lenOf h ≠ 0 then .error .lenNotZero
  else .ok (commandOf (opOf h) (rsvOf h) (lenOf h))

/-- The header word of a command (R42, R45, R49). -/
def encode : Instr → Word
  | .nop => headerWord 0 0 0
  | .start => headerWord 0 0 1
  | .update len => headerWord len 0 2
  | .rddig => headerWord 0 0 3
  | .rdhex => headerWord 0 0 4
  | .rdstat => headerWord 0 0 5
  | .reserved67 op rsv len => headerWord len rsv op
  | .reserved8F op rsv len => headerWord len rsv op

/-- The header word an opcode-table row's bits stand for: one 32-bit word, every bit above `nbits` zero. -/
def tableWord (nbits w : Nat) : Word := BitVec.ofNat 32 (w % 2 ^ nbits)

/-- What the decoder reads from an opcode-table row's bits. -/
def decodeTableWord (nbits w : Nat) : Option Instr :=
  match decode (tableWord nbits w) with
  | .ok i => some i
  | .error _ => none

end Sys2Proof
end

