-- ==== Sys2Proof/Machine/Operands.lean ====
section
/-! DEFINITION. The operand forms: the byte lanes of a stream word (20_memory.md R31), the payload bytes of a data word
(30_encoding.md R43, 40_session_commands.md R57), and the consecutive pieces of a byte sequence (40_session_commands.md
R58). -/

namespace Sys2Proof.Machine

/-- Byte lane `j` of a stream word: bits 8j+7 to 8j (R31). -/
def lane (w : Word) (j : Nat) : Byte := w.extractLsb' (8 * j) 8

/-- A word from its four byte lanes, lane 0 in the low bits (R31, R67, R83). -/
def wordOfLanes (b0 b1 b2 b3 : Byte) : Word :=
  b0.setWidth 32 ||| (b1.setWidth 32 <<< 8) ||| (b2.setWidth 32 <<< 16) ||| (b3.setWidth 32 <<< 24)

/-- How many lanes of the next data word are payload when `rem` bytes are still to arrive: min(4, REM) (R57). -/
def payloadLanes (rem : BitVec 24) : Nat := min 4 rem.toNat

/-- The payload bytes of a data word, lane 0 first; the lanes beyond them are not looked at (R33, R57). -/
def payloadBytes (w : Word) (rem : BitVec 24) : List Byte :=
  [lane w 0, lane w 1, lane w 2, lane w 3].take (payloadLanes rem)

/-- The consecutive pieces of `n` bytes of a sequence, the last one shorter where `n` does not divide its length; none
for the empty sequence (R51, R58). -/
def pieces (n : Nat) (bytes : List Byte) : List (List Byte) :=
  (List.range ((bytes.length + n - 1) / n)).map fun i => (bytes.drop (n * i)).take n

/-- The chunks of an UPDATE's payload (R58). -/
def chunksOf (payload : List Byte) : List (List Byte) := pieces 32 payload

end Sys2Proof.Machine
end

