-- ==== Sys2Proof/Machine/Ops.lean ====
section
/-! DEFINITION. The named operations over the state: the two stream primitives (00_scope.md R9), the command error, which
is the engine's one exception (60_exceptions.md R96, R97), the parser, the session and reset. There is no return from an
error (R103): the record is cleared by reset alone. -/

namespace Sys2Proof.Machine

/-- The host's next move is taken; `rest` are the moves after it. For a command word this is CmdRead (R9, R26). -/
def takeMove (rest : List HostMove) (s : State) : State := { s with inp := rest }

/-- RspWrite of each word in order (R9, R21, R27). -/
def rspWrite (ws : List Word) (s : State) : State := { s with rq := s.rq ++ ws }

/-- The host accepts the word at the head of RQ (R21). -/
def dropResponse (s : State) : State := { s with rq := s.rq.tail }

/-- Whether `depth` response words are too few to buffer these: the engine takes no command word then
(70_reset_and_hazards.md R113, log entry 2). -/
def overDepth : List Word → Nat → Bool
  | [], _ => false
  | _ :: _, 0 => true
  | _ :: ws, n + 1 => overDepth ws n

/-- Taking the exception: `raise CmdError(code)`. The first error is kept; nothing is saved and control goes nowhere
(R96, R102). -/
def raiseCmdError (c : CmdError) (s : State) : State :=
  if s.err then s else { s with errcode := errorCode c, err := true }

/-- The parser is set to take `len` payload bytes, to be absorbed or discarded (R56, R60). -/
def beginPayload (len : BitVec 24) (discard : Bool) (s : State) : State :=
  { s with ph := .data, rem := len, disc := discard, sbn := 0 }

/-- The effect of a malformed header: the error, and the data words of a malformed UPDATE are consumed with DISC = 1
(R60, R97). -/
def badHeader (w : Word) (c : CmdError) (s : State) : State :=
  if opOf w = 2 ∧ lenOf w ≠ 0 then beginPayload (lenOf w) true (raiseCmdError c s)
  else raiseCmdError c s

/-- The reset part of the source's `start`: H, BC, NC and INIT, nothing else (R55). -/
def clearSession (s : State) : State :=
  { s with h := Vector.replicate 16 0, bc := 0, nc := 0, init := false }

/-- Reset: every element takes its reset value, whatever was in progress; the host's later moves are not the engine's to
clear (70_reset_and_hazards.md R107). -/
def resetEngine (s : State) : State := { State.reset with inp := s.inp }

end Sys2Proof.Machine
end

