-- ==== Sys2Proof/Machine/Permutation.lean ====
section
/-! DEFINITION. The permutation core, 43_permutation.md: a pure function of sixteen words (R94). -/

namespace Sys2Proof.Machine

/-- rotl32(x, n), for n in 1..31 (R91). -/
def rotl32 (x : Word) (n : Nat) : Word := (x <<< n) ||| (x >>> (32 - n))

/-- The quarter-round on four words: twelve operations in order, each reading what the earlier ones wrote (R90). -/
def quarterRound (a b c d : Word) : Word × Word × Word × Word :=
  let a := a + b
  let d := rotl32 (d ^^^ a) 16
  let c := c + d
  let b := rotl32 (b ^^^ c) 12
  let a := a + b
  let d := rotl32 (d ^^^ a) 8
  let c := c + d
  let b := rotl32 (b ^^^ c) 7
  (a, b, c, d)

/-- The four places of a block that one quarter-round works on. -/
structure Quad where
  a : Fin 16
  b : Fin 16
  c : Fin 16
  d : Fin 16
  deriving DecidableEq, Repr

/-- QR(X, a, b, c, d): the quarter-round of four places, written back to the same places (R87). -/
def quarterRoundAt (x : Block) (q : Quad) : Block :=
  let r := quarterRound x[q.a] x[q.b] x[q.c] x[q.d]
  (((x.set q.a r.1).set q.b r.2.1).set q.c r.2.2.1).set q.d r.2.2.2

/-- The column tuples, in order (R87). -/
def columnQuads : List Quad := [⟨0, 4, 8, 12⟩, ⟨1, 5, 9, 13⟩, ⟨2, 6, 10, 14⟩, ⟨3, 7, 11, 15⟩]

/-- The diagonal tuples, in order (R88). -/
def diagonalQuads : List Quad := [⟨0, 5, 10, 15⟩, ⟨1, 6, 11, 12⟩, ⟨2, 7, 8, 13⟩, ⟨3, 4, 9, 14⟩]

/-- ColumnRound (R87). -/
def columnRound (x : Block) : Block := columnQuads.foldl quarterRoundAt x

/-- DiagonalRound (R88). -/
def diagonalRound (x : Block) : Block := diagonalQuads.foldl quarterRoundAt x

/-- DoubleRound: a column round, then a diagonal round (R89). -/
def doubleRound (x : Block) : Block := diagonalRound (columnRound x)

/-- `n` applications of a round function, one after another. -/
def repeatRound (f : Block → Block) : Nat → Block → Block
  | 0, x => x
  | n + 1, x => repeatRound f n (f x)

/-- The feedforward: word-wise addition of the original input (R86, R89). -/
def feedForward (x input : Block) : Block := Vector.ofFn fun i => x[i] + input[i]

/-- ChaChaPerm: ten double rounds and the feedforward (R86). Irreducible, so that no proof about the machine computes it
by accident. -/
@[irreducible] def chachaPerm (input : Block) : Block := feedForward (repeatRound doubleRound 10 input) input

/-- The rounds of a network that computes `perStep` double rounds in each of `steps` clock steps (R93). -/
def networkRounds (perStep steps : Nat) (x : Block) : Block :=
  repeatRound (repeatRound doubleRound perStep) steps x

/-- The rounds of a network of four quarter-round units, used for a column layer and a diagonal layer in turn: `layers`
clock steps, the first one a column layer if `column` (R93). -/
def halfStepRounds : Bool → Nat → Block → Block
  | _, 0, x => x
  | true, n + 1, x => halfStepRounds false n (columnRound x)
  | false, n + 1, x => halfStepRounds true n (diagonalRound x)

/-- The core built to a given unroll depth: twenty layers, or `DR_PER_STEP` double rounds a step (R6, R93). -/
def unrolledPerm (depth : UnrollDepth) (input : Block) : Block :=
  match depth with
  | .half => feedForward (halfStepRounds true 20 input) input
  | .one => feedForward (networkRounds 1 10 input) input
  | .two => feedForward (networkRounds 2 5 input) input
  | .five => feedForward (networkRounds 5 2 input) input
  | .ten => feedForward (networkRounds 10 1 input) input

end Sys2Proof.Machine
end

