-- ==== Sys2Proof/Machine/Absorb.lean ====
section
/-! DEFINITION. The block formatter, the counters and the accumulator (41_block_absorb.md), and the absorption loop over
an UPDATE's data words (40_session_commands.md R57, R59). -/

namespace Sys2Proof.Machine

/-- Byte `i` of the zero-padded chunk of `len` bytes: what the buffer holds from `len` on is not read (R67, R68). -/
def paddedByte (buf : Chunk) (len : Nat) (i : Fin 32) : Byte := if i.val < len then buf[i] else 0

/-- IN[4+k]: bytes 4k to 4k+3 of the padded chunk, little-endian (R30, R67). -/
def payloadWord (buf : Chunk) (len : Nat) (k : Fin 8) : Word :=
  wordOfLanes (paddedByte buf len ⟨4 * k.val, by omega⟩) (paddedByte buf len ⟨4 * k.val + 1, by omega⟩)
    (paddedByte buf len ⟨4 * k.val + 2, by omega⟩) (paddedByte buf len ⟨4 * k.val + 3, by omega⟩)

/-- FormatBlock: the "expand 32-byte k" words (R66), the payload (R68), the low half of the byte counter (R69), 0 (R70),
the low half of the block nonce (R71), 0 (R72). `bc` already counts this chunk, `nc` does not (R67). -/
def formatBlock (buf : Chunk) (len : Nat) (bc nc : Counter) : Block :=
  #v[0x61707865, 0x3320646e, 0x79622d32, 0x6b206574,
    payloadWord buf len 0, payloadWord buf len 1, payloadWord buf len 2, payloadWord buf len 3,
    payloadWord buf len 4, payloadWord buf len 5, payloadWord buf len 6, payloadWord buf len 7,
    bc.setWidth 32, 0, nc.setWidth 32, 0]

/-- The word-wise XOR of the fold: sixteen independent lanes (R74, R75). -/
def xorBlock (x y : Block) : Block := Vector.ofFn fun i => x[i] ^^^ y[i]

/-- The accumulator's two branches: the first output of a session is assigned, every later one folded in (R74). -/
def accumulate (init : Bool) (h p : Block) : Block := if init then xorBlock h p else p

/-- AbsorbBlock(C, L) (R65): BC grows before the block is formatted, NC after (R69, R71). -/
def absorbBlock (buf : Chunk) (len : Nat) (s : State) : State :=
  let bc := s.bc + BitVec.ofNat 64 len
  let p := chachaPerm (formatBlock buf len bc s.nc)
  { s with bc := bc, nc := s.nc + 1, h := accumulate s.init s.h p, init := true }

/-- SB[SBN] <- b; SBN <- SBN + 1 (R57). -/
def stageByte (b : Byte) (s : State) : State :=
  { s with sb := s.sb.setIfInBounds s.sbn.toNat b, sbn := s.sbn + 1 }

/-- AbsorbBlock(SB, `len`); SBN <- 0 (R57). -/
def absorbStaged (len : Nat) (s : State) : State := { absorbBlock s.sb len s with sbn := 0 }

/-- One payload byte of a data word: staged unless it is discarded, and the chunk absorbed when it is the 32nd (R57). -/
def takeByte (s : State) (b : Byte) : State :=
  if s.disc then s
  else if (stageByte b s).sbn = 32 then absorbStaged 32 (stageByte b s)
  else stageByte b s

/-- The final, short chunk of a payload, where there is one (R57). -/
def absorbLast (s : State) : State :=
  if s.disc = false ∧ s.sbn ≠ 0 then absorbStaged s.sbn.toNat s else s

/-- The payload is complete: what is staged is absorbed and the next word is a header (R57). -/
def endPayload (s : State) : State := { absorbLast s with ph := .hdr, disc := false }

/-- REM <- REM - k, the payload lanes of the data word (R57). -/
def countLanes (s : State) : State := { s with rem := s.rem - BitVec.ofNat 24 (payloadLanes s.rem) }

/-- An UPDATE's data word (R57). -/
def dataWord (w : Word) (s : State) : State :=
  let t := countLanes ((payloadBytes w s.rem).foldl takeByte s)
  if t.rem = 0 then endPayload t else t

/-- A chunk's bytes in a 32-byte buffer; what stands behind them is never read (R68). -/
def bufferOf (bytes : List Byte) : Chunk := Vector.ofFn fun i => bytes.getD i.val 0

/-- The transaction view of a whole legal UPDATE packet with this payload (R59). -/
def absorbPayload (payload : List Byte) (s : State) : State :=
  (chunksOf payload).foldl (fun s c => absorbBlock (bufferOf c) c.length s) s

end Sys2Proof.Machine
end

