-- ==== Sys2Proof/Machine/Readout.lean ====
section
/-! DEFINITION. The digest reads RDDIG and RDHEX, and the digest formatter, 42_digest_readout.md. -/

namespace Sys2Proof.Machine

/-- HexChar: the ASCII code of a nibble's lowercase hexadecimal digit (R81, R82). -/
def hexChar (v : BitVec 4) : Byte :=
  if v.toNat < 10 then 0x30 + v.setWidth 8 else 0x61 + (v.setWidth 8 - 10)

/-- T[t]: character `t` of the digest text, the most significant nibble of each word first (R81). -/
def digestChar (h : Block) (t : Fin 128) : Byte :=
  hexChar ((h[t.val / 8]'(by omega)).extractLsb' (28 - 4 * (t.val % 8)) 4)

/-- Response word `m` of RDHEX: characters 4m to 4m+3, lowest lane first (R83). -/
def hexWord (h : Block) (m : Fin 32) : Word :=
  wordOfLanes (digestChar h ⟨4 * m.val, by omega⟩) (digestChar h ⟨4 * m.val + 1, by omega⟩)
    (digestChar h ⟨4 * m.val + 2, by omega⟩) (digestChar h ⟨4 * m.val + 3, by omega⟩)

/-- The 32 response words of RDHEX, in order (R83). -/
def hexWords (h : Block) : List Word := (List.finRange 32).map (hexWord h)

/-- RDDIG: the sixteen HashState words, in order (R80). -/
def execRddig (s : State) : Host.Outcome State Fault Refusal := .next (rspWrite s.h.toList s)

/-- RDHEX: the digest text in 32 response words (R83). -/
def execRdhex (s : State) : Host.Outcome State Fault Refusal := .next (rspWrite (hexWords s.h) s)

end Sys2Proof.Machine
end

