-- ==== Sys2Proof/Machine/Reserved.lean ====
section
/-! DEFINITION. The reserved opcodes, 30_encoding.md R46: each raises CmdError(1), has no other effect and is one word
long; all ten behave identically. -/

namespace Sys2Proof.Machine

/-- OP 0x6 and 0x7 (R46). RSV and LEN are not checked. -/
def execReserved67 (_op _rsv : BitVec 4) (_len : BitVec 24) (s : State) : Host.Outcome State Fault Refusal :=
  .next (raiseCmdError .illegalOpcode s)

/-- OP 0x8 to 0xF (R46). RSV and LEN are not checked. -/
def execReserved8F (_op _rsv : BitVec 4) (_len : BitVec 24) (s : State) : Host.Outcome State Fault Refusal :=
  .next (raiseCmdError .illegalOpcode s)

end Sys2Proof.Machine
end

