-- ==== Sys2Proof/Machine/Session.lean ====
section
/-! DEFINITION. NOP, START, UPDATE's header and RDSTAT, 40_session_commands.md. -/

namespace Sys2Proof.Machine

/-- NOP: no state changes (R54). -/
def execNop (s : State) : Host.Outcome State Fault Refusal := .next s

/-- START: a new session (R55). -/
def execStart (s : State) : Host.Outcome State Fault Refusal := .next (clearSession s)

/-- UPDATE: an empty payload changes nothing; else the parser waits for `len` bytes (R56). The data words are
`dataWord`'s (R57). -/
def execUpdate (len : BitVec 24) (s : State) : Host.Outcome State Fault Refusal :=
  if len = 0 then .next s else .next (beginPayload len false s)

/-- RDSTAT: one response word, STATUS (R63). -/
def execRdstat (s : State) : Host.Outcome State Fault Refusal := .next (rspWrite [statusWord s] s)

end Sys2Proof.Machine
end

