-- ==== Sys2Proof/Machine/Dispatch.lean ====
section
/-! DEFINITION. Which meaning each command has (40_session_commands.md R53). -/

namespace Sys2Proof.Machine

def exec (i : Instr) (s : State) : Host.Outcome State Fault Refusal :=
  match i with
  | .nop => Sys2Proof.Machine.execNop s
  | .start => Sys2Proof.Machine.execStart s
  | .update len => Sys2Proof.Machine.execUpdate len s
  | .rddig => Sys2Proof.Machine.execRddig s
  | .rdhex => Sys2Proof.Machine.execRdhex s
  | .rdstat => Sys2Proof.Machine.execRdstat s
  | .reserved67 op rsv len => Sys2Proof.Machine.execReserved67 op rsv len s
  | .reserved8F op rsv len => Sys2Proof.Machine.execReserved8F op rsv len s

end Sys2Proof.Machine
end

