-- ==== Sys2Proof/Machine/Engine.lean ====
section
/-! DEFINITION. What one step does: the engine's own step on a command word (40_session_commands.md R53), and which of the
host's moves can take place (20_memory.md R26, R27; 70_reset_and_hazards.md R107, R112, R113). -/

namespace Sys2Proof.Machine

/-- A word at a header position: decoded, and run as the command or the malformed header it is (R53, R60). -/
def headerStep (w : Word) (s : State) : Host.Outcome State Fault Refusal :=
  match decode w with
  | .ok i => exec i s
  | .error c => .next (badHeader w c s)

/-- A word inside an UPDATE (R53, R57). A payload byte that has no place in SB is refused; no run reaches that
(93_implementation_defined.md U14). -/
def payloadStep (w : Word) (s : State) : Host.Outcome State Fault Refusal :=
  if s.disc = false ∧ 32 ≤ s.sbn.toNat then .refused .stagingOverrun else .next (dataWord w s)

/-- EngineStep on the word it has read (R53). -/
def engineStep (w : Word) (s : State) : Host.Outcome State Fault Refusal :=
  match s.ph with
  | .hdr => headerStep w s
  | .data => payloadStep w s

/-- One transfer, the host's next move, if it can take place: a command word is taken unless more response words wait
than the engine buffers (R113), a response word is accepted if there is one (R27), reset always happens (R107). With no
move there is no step (R112). -/
def advance (s : State) : Host.Outcome State Fault Refusal :=
  match s.inp with
  | [] => .fault .stuckNoHostMove
  | .reset :: rest => .next (resetEngine (takeMove rest s))
  | .accept :: rest =>
    match s.rq with
    | [] => .fault .stuckNoResponse
    | _ :: _ => .next (dropResponse (takeMove rest s))
  | .word w :: rest =>
    if overDepth s.rq Config.rqDepth then .fault .stuckResponsesNotAccepted else engineStep w (takeMove rest s)

/-- The state at which the engine's next step takes this word as a header: at a header position (a payload in progress is
given up, as reset does it), with no response word in the way, and the word first among the host's moves. -/
def presentHeader (w : Word) (s : State) : State :=
  let s := { s with inp := .word w :: s.inp }
  let s := if overDepth s.rq Config.rqDepth then { s with rq := [] } else s
  match s.ph with
  | .hdr => s
  | .data => { s with ph := .hdr, rem := 0, disc := false, sbn := 0 }

end Sys2Proof.Machine
end

