-- ==== Sys2Proof/Machine/Step.lean ====
section
/-! DEFINITION. The machine's one step, and how a header is placed before it. -/

namespace Sys2Proof.Machine

/-- One step of the machine: one transfer between the host and the engine. -/
def step (s : State) : Host.Outcome State Fault Refusal := advance s

/-- The state in which the very next step runs the instruction with these bits: its header is the next word on the
command stream, at a header position (log entry 3). -/
def State.withFetchWord (s : State) (nbits w : Nat) : State := presentHeader (tableWord nbits w) s

end Sys2Proof.Machine
end

