-- ==== Sys2Proof/Machine/Packets.lean ====
section
/-! DEFINITION. Command streams as the host writes and reads them: the assembler's packets and the source's three calls
(30_encoding.md R50, R51), and the packets of a word stream (R52). -/

namespace Sys2Proof.Machine

/-- Data words from payload bytes, unused lanes of the last word 0 (20_memory.md R31, R50). -/
def packBytes : List Byte → List Word
  | [] => []
  | [b0] => [wordOfLanes b0 0 0 0]
  | [b0, b1] => [wordOfLanes b0 b1 0 0]
  | [b0, b1, b2] => [wordOfLanes b0 b1 b2 0]
  | b0 :: b1 :: b2 :: b3 :: rest => wordOfLanes b0 b1 b2 b3 :: packBytes rest

/-- Payload byte `i` of a packet's data words (30_encoding.md R43). -/
def payloadByte (ws : List Word) (i : Nat) : Byte := lane (ws.getD (i / 4) 0) (i % 4)

/-- The payload of an UPDATE of `len` bytes with these data words (R43). -/
def payloadOf (len : Nat) (ws : List Word) : List Byte := (List.range len).map (payloadByte ws)

/-- The UPDATE packet of a payload of at most LEN_MAX bytes (R50). -/
def updatePacket (payload : List Byte) : List Word :=
  encode (.update (BitVec.ofNat 24 payload.length)) :: packBytes payload

/-- The assembler's line `UPDATE <len>, <w0>, ...`: refused when the words are not ceil(len/4) or `len` is above LEN_MAX
(R50). -/
def assembleUpdate (len : Nat) (ws : List Word) : Option (List Word) :=
  if len < 2 ^ 24 ∧ ws.length = (len + 3) / 4 then some (encode (.update (BitVec.ofNat 24 len)) :: ws) else none

/-- The largest multiple of 32 that is at most LEN_MAX, at which `update` is split (R51). -/
def splitSize : Nat := 16777184

/-- The pseudo-instruction `update(B)` (R51): nothing for the empty sequence, else UPDATE packets of `splitSize` bytes,
the last one shorter. -/
def updateCall (payload : List Byte) : List Word := (pieces splitSize payload).flatMap updatePacket

/-- The pseudo-instruction `start(B)` (R51). -/
def startCall (payload : List Byte) : List Word := encode .start :: updateCall payload

/-- The pseudo-instruction `digest()` (R51). -/
def digestCall : List Word := [encode .rdhex]

/-- The digest text a host unpacks from the response words: characters 4m to 4m+3 from word m (R51, 42_digest_readout.md
R85). -/
def unpackText (ws : List Word) : List Byte := ws.flatMap fun w => [lane w 0, lane w 1, lane w 2, lane w 3]

/-- A packet of a word stream: its header, the data words that have come, and how many are still to come (R41, R52). -/
structure Packet where
  header : Word
  data : List Word
  missing : Nat
  deriving DecidableEq, Repr

/-- The packets of a word stream, the first words belonging to `current` where a packet is under way. Only the last one
can be incomplete (R52). -/
def packetsFrom : Option Packet → List Word → List Packet
  | none, [] => []
  | some p, [] => [p]
  | none, w :: ws =>
    if ndata w = 0 then ⟨w, [], 0⟩ :: packetsFrom none ws else packetsFrom (some ⟨w, [], ndata w⟩) ws
  | some p, w :: ws =>
    if p.missing ≤ 1 then ⟨p.header, p.data ++ [w], 0⟩ :: packetsFrom none ws
    else packetsFrom (some ⟨p.header, p.data ++ [w], p.missing - 1⟩) ws

/-- The packets of a stream that begins at a header position (R52). -/
def packetsOf (ws : List Word) : List Packet := packetsFrom none ws

end Sys2Proof.Machine
end

