-- ==== Sys2Proof/Safety.lean ====
section
/-! DEFINITION. The terms claims use: the invariant of the engine's state, what the host observes (00_scope.md R10), and
when a run is complete. -/

namespace Sys2Proof.Machine

/-- What holds between any two steps of an engine that has been reset. -/
structure State.Inv (s : State) : Prop where
  /-- 10_state.md R15, R23, 40_session_commands.md R55: nothing absorbed, nothing held and nothing counted. -/
  fresh : s.init = false → s.h = Vector.replicate 16 0 ∧ s.bc = 0 ∧ s.nc = 0
  /-- 10_state.md R17: ERRCODE is 0 while ERR = 0. -/
  noError : s.err = false → s.errcode = 0
  /-- 10_state.md R17, 60_exceptions.md R95: ERRCODE is 1, 2 or 3 otherwise. -/
  someError : s.err = true → s.errcode = 1 ∨ s.errcode = 2 ∨ s.errcode = 3
  /-- 40_session_commands.md R57, R61: at a header position nothing is pending, discarded or staged. -/
  atHeader : s.ph = .hdr → s.rem = 0 ∧ s.disc = false ∧ s.sbn = 0
  /-- 40_session_commands.md R57: inside a payload at least one byte is to come. -/
  inPayload : s.ph = .data → s.rem ≠ 0
  /-- 40_session_commands.md R60: nothing is staged of a payload that is discarded. -/
  discarding : s.disc = true → s.sbn = 0
  /-- 40_session_commands.md R57: a chunk is absorbed as soon as it is full, and only whole words are staged between
  steps. -/
  staged : s.sbn.toNat < 32 ∧ s.sbn.toNat % 4 = 0

/-- The session state: H, BC, NC and INIT (10_state.md R11 to R14, R25). -/
structure Session where
  h : Block
  bc : Counter
  nc : Counter
  init : Bool
  deriving DecidableEq, Repr

/-- The session state of a state. -/
def State.session (s : State) : Session := ⟨s.h, s.bc, s.nc, s.init⟩

/-- The response word that leaves the engine in the next step, if one does (R10, 20_memory.md R27). -/
def State.emitted (s : State) : Option Word :=
  match s.inp with
  | .accept :: _ => s.rq.head?
  | _ => none

/-- `k` steps of the machine (40_session_commands.md R53), stopping at the first step that does not take place: the
host's run of `core`. -/
def run (k : Nat) (s : State) : Host.Outcome State Fault Refusal := core.run k s

/-- What the host has observed after `k` steps: the response words accepted, in order (R10). A run that stops observes
nothing more. -/
def observed : Nat → State → List Word
  | 0, _ => []
  | k + 1, s =>
    match step s with
    | .next t => s.emitted.toList ++ observed k t
    | .fault _ => []
    | .refused _ => []

/-- A complete run ends here: a header position, no word pending, every response accepted (R10). -/
def State.Complete (s : State) : Prop := s.ph = .hdr ∧ s.inp = [] ∧ s.rq = []

/-- The engine takes a command word now (70_reset_and_hazards.md R113). -/
abbrev State.TakesWords (s : State) : Prop := overDepth s.rq Config.rqDepth = false

/-- The command word that a move of the host sends, if it sends one. -/
def HostMove.sent : HostMove → Option Word
  | .word w => some w
  | .accept => none
  | .reset => none

/-- The host sends these words, one after another, and then makes the moves `rest`. -/
def sends (ws : List Word) (rest : List HostMove) : List HostMove := ws.map .word ++ rest

/-- Header `h` is malformed and its error code is `code`: the causes of 60_exceptions.md R95 in the order of R98, with
OP = h mod 16, RSV = h div 16 mod 16 and LEN = h div 256 (30_encoding.md R42). -/
def Malformed (h : Word) (code : BitVec 4) : Prop :=
  (6 ≤ h.toNat % 16 ∧ code = 1) ∨
  (h.toNat % 16 < 6 ∧ h.toNat / 16 % 16 ≠ 0 ∧ code = 2) ∨
  (h.toNat % 16 < 6 ∧ h.toNat / 16 % 16 = 0 ∧ h.toNat % 16 ≠ 2 ∧ h.toNat / 256 ≠ 0 ∧ code = 3)

end Sys2Proof.Machine
end

