-- ==== Sys2Proof/Certificates/Slice0/Obligations.lean ====
section
/-! DEFINITION. The statements for the provers. Each docstring names the rule of spec/ that it formalises. -/

open Sys2Proof Sys2Proof.Machine

/-! ### Encoding -/

/-- 30_encoding.md R42, R45, R49: decoding the header of any well-formed command gives the command back, every field at
every value. -/
def Obligations.DecodeOfEncodeIsTheCommand : Prop :=
  ∀ i : Instr, i.wellFormed = true → decode (encode i) = .ok i

/-- 30_encoding.md R42, R45, R49: a header that decodes is the header of the command it decodes to, which is well
formed. -/
def Obligations.EncodeOfDecodeIsTheHeader : Prop :=
  ∀ (h : Word) (i : Instr), decode h = .ok i → encode i = h ∧ i.wellFormed = true

/-- 30_encoding.md R49: the checks in their order, on the header read as a number, and which headers are legal. -/
def Obligations.HeaderDecodeChecksOpcodeThenReservedThenLength : Prop :=
  ∀ h : Word,
    let op := h.toNat % 16
    let rsv := h.toNat / 16 % 16
    let len := h.toNat / 256
    (op = 6 ∨ op = 7 → decode h = .ok (.reserved67 (BitVec.ofNat 4 op) (BitVec.ofNat 4 rsv) (BitVec.ofNat 24 len))) ∧
    (8 ≤ op → decode h = .ok (.reserved8F (BitVec.ofNat 4 op) (BitVec.ofNat 4 rsv) (BitVec.ofNat 24 len))) ∧
    (op < 6 → rsv ≠ 0 → decode h = .error .reservedBits) ∧
    (op < 6 → rsv = 0 → op ≠ 2 → len ≠ 0 → decode h = .error .lenNotZero) ∧
    (op = 2 → rsv = 0 → decode h = .ok (.update (BitVec.ofNat 24 len))) ∧
    (rsv = 0 → len = 0 →
      (op = 0 → decode h = .ok .nop) ∧ (op = 1 → decode h = .ok .start) ∧ (op = 3 → decode h = .ok .rddig) ∧
      (op = 4 → decode h = .ok .rdhex) ∧ (op = 5 → decode h = .ok .rdstat)) ∧
    ((∃ i, decode h = .ok i ∧ ∀ o r l, i ≠ .reserved67 o r l ∧ i ≠ .reserved8F o r l) ↔
      (h = 0 ∨ h = 1 ∨ h = 3 ∨ h = 4 ∨ h = 5 ∨ h.toNat % 256 = 2))

/-- 95_test_vectors.md section 6: some of its headers decode as its table says. -/
def Obligations.SampleHeadersDecodeAsTheTableSays : Prop :=
  decode 0x00000000 = .ok .nop ∧ decode 0x00000001 = .ok .start ∧ decode 0x00000302 = .ok (.update 3) ∧
  decode 0xffffff02 = .ok (.update 16777215) ∧ decode 0x00000003 = .ok .rddig ∧ decode 0x00000004 = .ok .rdhex ∧
  decode 0x00000005 = .ok .rdstat ∧ decode 0x00000157 = .ok (.reserved67 7 5 1) ∧
  decode 0xffffffff = .ok (.reserved8F 15 15 16777215) ∧ decode 0x00000312 = .error .reservedBits ∧
  decode 0x00000103 = .error .lenNotZero

/-- 30_encoding.md R44: a header is followed by exactly NDATA data words, whether or not it is malformed: while they come
the engine is inside the payload, after the last one it is at a header position. -/
def Obligations.EveryPacketIsItsHeaderAndItsDataWords : Prop :=
  ∀ (s : State) (h : Word) (ds : List Word) (rest : List HostMove),
    s.ph = .hdr → s.TakesWords → s.inp = sends (h :: ds) rest →
    ds.length = (if h.toNat % 16 = 2 then (h.toNat / 256 + 3) / 4 else 0) →
    (∃ t, run (1 + ds.length) s = .next t ∧ t.ph = .hdr ∧ t.inp = rest) ∧
    (∀ k, 1 ≤ k → k ≤ ds.length → ∃ u, run k s = .next u ∧ u.ph = .data)

/-- 30_encoding.md R52: cutting a word stream into packets loses no word, gives every packet but the last its NDATA data
words, and says of the last how many are missing. -/
def Obligations.PacketSplitterIsTotalAndLosesNoWord : Prop :=
  ∀ ws : List Word,
    (packetsOf ws).flatMap (fun p => p.header :: p.data) = ws ∧
    (∀ p ∈ packetsOf ws, p.data.length + p.missing = ndata p.header) ∧
    (∀ p ∈ (packetsOf ws).dropLast, p.missing = 0)

/-- 30_encoding.md R50: the assembler's line `UPDATE <len>, <w0>, ...` is refused exactly when `len` is above LEN_MAX or
the data words are not ceil(len/4); otherwise it is one complete packet of the stream. -/
def Obligations.AssembledUpdateLineIsOnePacket : Prop :=
  ∀ (len : Nat) (ws : List Word),
    (assembleUpdate len ws = none ↔ 16777215 < len ∨ ws.length ≠ (len + 3) / 4) ∧
    ∀ line, assembleUpdate len ws = some line →
      packetsOf line = [⟨encode (.update (BitVec.ofNat 24 len)), ws, 0⟩]

/-- 30_encoding.md R43, 20_memory.md R31: payload bytes packed into data words are read back unchanged, and there are
ceil(LEN/4) words. -/
def Obligations.PackedPayloadIsReadBack : Prop :=
  ∀ payload : List Byte,
    payloadOf payload.length (packBytes payload) = payload ∧ (packBytes payload).length = (payload.length + 3) / 4

/-! ### The step -/

/-- 40_session_commands.md R53: at a header position the step takes the word off the stream and is exec of the command it
decodes to; so a well-formed command's own header runs that command. -/
def Obligations.StepRunsTheDecodedCommand : Prop :=
  (∀ (s : State) (w : Word) (rest : List HostMove) (i : Instr),
    s.inp = .word w :: rest → s.ph = .hdr → s.TakesWords → decode w = .ok i →
    step s = exec i { s with inp := rest }) ∧
  (∀ (s : State) (rest : List HostMove) (i : Instr),
    s.inp = .word (encode i) :: rest → s.ph = .hdr → s.TakesWords → i.wellFormed = true →
    step s = exec i { s with inp := rest })

/-- 60_exceptions.md R96, R98, 30_encoding.md R46, R48: a malformed header records its code if it is the first, and changes
nothing else but that a malformed UPDATE's payload is awaited, to be discarded (40_session_commands.md R60). -/
def Obligations.MalformedHeaderRecordsItsCodeAndNothingElse : Prop :=
  ∀ (s : State) (h : Word) (code : BitVec 4) (rest : List HostMove),
    s.inp = .word h :: rest → s.ph = .hdr → s.TakesWords → Malformed h code →
    step s = .next
      (if h.toNat % 16 = 2 ∧ h.toNat / 256 ≠ 0 then
        { s with inp := rest, err := true, errcode := if s.err then s.errcode else code,
                 ph := .data, rem := BitVec.ofNat 24 (h.toNat / 256), disc := true, sbn := 0 }
      else { s with inp := rest, err := true, errcode := if s.err then s.errcode else code })

/-- 30_encoding.md R47, 40_session_commands.md R60: after a malformed UPDATE header and all its data words, only the error
record has changed. -/
def Obligations.MalformedUpdatePacketIsDiscarded : Prop :=
  ∀ (s : State) (h : Word) (ds : List Word) (rest : List HostMove),
    s.Inv → s.ph = .hdr → s.TakesWords → h.toNat % 16 = 2 → h.toNat / 16 % 16 ≠ 0 →
    ds.length = (h.toNat / 256 + 3) / 4 → s.inp = sends (h :: ds) rest →
    run (1 + ds.length) s =
      .next { s with inp := rest, err := true, errcode := if s.err then s.errcode else 2 }

/-- 40_session_commands.md R57 with DISC = 1: the data word's lanes are counted off REM and nothing else happens; with the
last one the engine is at a header position. -/
def Obligations.DiscardedDataWordOnlyCountsDown : Prop :=
  ∀ (s : State) (w : Word) (rest : List HostMove),
    s.inp = .word w :: rest → s.ph = .data → s.disc = true → s.TakesWords →
    step s = .next
      (if s.rem.toNat ≤ 4 then { s with inp := rest, rem := 0, ph := .hdr, disc := false }
      else { s with inp := rest, rem := s.rem - 4 })

/-- 40_session_commands.md R57 with DISC = 0: the low min(4, REM) lanes are staged, lane 0 first; a full chunk is absorbed
as 32 bytes, what is staged when the payload ends as the short chunk it is. -/
def Obligations.DataWordStagesItsLanesAndAbsorbsCompletedChunks : Prop :=
  ∀ (s : State) (w : Word) (rest : List HostMove),
    s.inp = .word w :: rest → s.ph = .data → s.disc = false → s.TakesWords → s.rem ≠ 0 →
    let n := s.sbn.toNat + min 4 s.rem.toNat
    n ≤ 32 →
    let staged : Chunk := Vector.ofFn fun i : Fin 32 =>
      if s.sbn.toNat ≤ i.val ∧ i.val < n then lane w (i.val - s.sbn.toNat) else s.sb[i]
    ∃ t, step s = .next t ∧ t.inp = rest ∧ t.rq = s.rq ∧ t.err = s.err ∧ t.errcode = s.errcode ∧ t.disc = false ∧
      t.sb = staged ∧ t.rem.toNat = s.rem.toNat - 4 ∧ (t.ph = .hdr ↔ s.rem.toNat ≤ 4) ∧
      (n = 32 ∨ s.rem.toNat ≤ 4 → t.session = (absorbBlock staged n s).session ∧ t.sbn = 0) ∧
      (n < 32 → 4 < s.rem.toNat → t.session = s.session ∧ t.sbn.toNat = n)

/-- 20_memory.md R33, 40_session_commands.md R57: the lanes beyond LEN in the last data word are ignored. -/
def Obligations.LanesBeyondThePayloadAreIgnored : Prop :=
  ∀ (s : State) (w w' : Word),
    (∀ j, j < min 4 s.rem.toNat → lane w j = lane w' j) → dataWord w s = dataWord w' s

/-- 20_memory.md R26 on the model's one list of host moves, which is the model's own choice (log entry 1): a step takes
exactly one move, the next one, and looks ahead at none: with any other later moves it does the same. -/
def Obligations.StepTakesExactlyTheNextMove : Prop :=
  ∀ s t : State, step s = .next t →
    ∃ m, s.inp = m :: t.inp ∧ ∀ later, step { s with inp := m :: later } = .next { t with inp := later }

/-- 40_session_commands.md R53, 70_reset_and_hazards.md R112, R113: the machine is stuck exactly when no transfer can take
place, and in the states the engine can be in it refuses nothing. What RQ_DEPTH means and the third reason are the model's
(log entries 1, 2, 5). -/
def Obligations.StepStopsOnlyWhenNothingCanTransfer : Prop :=
  ∀ s : State,
    (step s = .fault .stuckNoHostMove ↔ s.inp = []) ∧
    (step s = .fault .stuckResponsesNotAccepted ↔ (∃ w rest, s.inp = .word w :: rest) ∧ Config.rqDepth < s.rq.length) ∧
    (step s = .fault .stuckNoResponse ↔ (∃ rest, s.inp = .accept :: rest) ∧ s.rq = []) ∧
    (s.Inv → ∀ r, step s ≠ .refused r)

/-- 70_reset_and_hazards.md R113, 20_memory.md R36: what a command word does, and what it answers, is the same when one
more earlier response word still waits to be accepted. -/
def Obligations.AcceptingEarlierOrLaterIsTheSame : Prop :=
  ∀ (s t : State) (w r : Word), engineStep w s = .next t →
    engineStep w { s with rq := r :: s.rq } = .next { t with rq := r :: t.rq }

/-- 00_scope.md R10, 20_memory.md R36: of two complete runs without a reset in which the host sends the same words, whenever
it accepts the responses, the final states are the same and so are the responses observed. -/
def Obligations.CompleteRunsDependOnlyOnTheCommandWords : Prop :=
  ∀ (s t t' : State) (moves moves' : List HostMove),
    .reset ∉ moves → .reset ∉ moves' → moves.filterMap HostMove.sent = moves'.filterMap HostMove.sent →
    run moves.length { s with inp := moves } = .next t → run moves'.length { s with inp := moves' } = .next t' →
    t.Complete → t'.Complete →
    t = t' ∧ observed moves.length { s with inp := moves } = observed moves'.length { s with inp := moves' }

/-- 20_memory.md R27: an accepted word is the oldest of RQ, and nothing else changes. -/
def Obligations.AcceptTakesTheOldestResponse : Prop :=
  ∀ (s : State) (r : Word) (rs : List Word) (rest : List HostMove),
    s.inp = .accept :: rest → s.rq = r :: rs →
    s.emitted = some r ∧ step s = .next { s with inp := rest, rq := rs }

/-! ### The invariant, and rules about the whole machine -/

/-- `State.Inv` (10_state.md R15, R17, 40_session_commands.md R57, R60, R61) is kept by every step. -/
def Obligations.StepKeepsTheInvariant : Prop :=
  ∀ s t : State, s.Inv → step s = .next t → t.Inv

/-- 10_state.md R23: the state after reset meets the invariant. -/
def Obligations.ResetMeetsTheInvariant : Prop := State.reset.Inv

/-- 10_state.md R15: in every state that any moves of the host lead to from reset, H is zero while INIT is 0. -/
def Obligations.HashIsZeroUntilInitialized : Prop :=
  ∀ (moves : List HostMove) (k : Nat) (t : State),
    run k { State.reset with inp := moves } = .next t → t.init = false → ∀ i : Fin 16, t.h[i] = 0

/-- 70_reset_and_hazards.md R107, 10_state.md R23: reset gives every element its reset value, whatever the engine was
doing. -/
def Obligations.ResetGivesEveryElementItsResetValue : Prop :=
  ∀ (s : State) (rest : List HostMove), s.inp = .reset :: rest →
    ∃ t, step s = .next t ∧ t.inp = rest ∧ (∀ i : Fin 16, t.h[i] = 0) ∧ t.bc = 0 ∧ t.nc = 0 ∧ t.init = false ∧
      t.err = false ∧ t.errcode = 0 ∧ t.ph = .hdr ∧ t.rem = 0 ∧ t.disc = false ∧ (∀ i : Fin 32, t.sb[i] = 0) ∧
      t.sbn = 0 ∧ t.rq = []

/-- 60_exceptions.md R103: ERR and ERRCODE are cleared by reset, and by no other step changed once ERR = 1. -/
def Obligations.ErrorRecordStaysUntilReset : Prop :=
  ∀ s t : State, step s = .next t → s.err = true →
    if s.inp.head? = some .reset then t.err = false ∧ t.errcode = 0 else t.err = true ∧ t.errcode = s.errcode

/-- 60_exceptions.md R99: only a malformed header raises an error, and the code recorded is its own; no payload byte, no
length and no order of commands does. -/
def Obligations.OnlyMalformedHeadersRaiseErrors : Prop :=
  ∀ s t : State, step s = .next t → s.err = false → t.err = true →
    ∃ h rest, s.inp = .word h :: rest ∧ s.ph = .hdr ∧ Malformed h t.errcode

/-- 60_exceptions.md R99, 10_state.md R11 to R14: the session state changes only by reset, by START, and by payload that
is absorbed. -/
def Obligations.SessionChangesOnlyByStartResetAndPayload : Prop :=
  ∀ s t : State, step s = .next t → t.session ≠ s.session →
    s.inp.head? = some .reset ∨ (s.ph = .hdr ∧ s.inp.head? = some (.word 1)) ∨
    (s.ph = .data ∧ s.disc = false ∧ ∃ w, s.inp.head? = some (.word w))

/-- 20_memory.md R27, R35: a word that is not the header of a read command at a header position adds no response; so
nothing can be read inside a packet. -/
def Obligations.NoResponseIsProducedUnasked : Prop :=
  ∀ (s t : State) (w : Word) (rest : List HostMove),
    s.inp = .word w :: rest → step s = .next t → (s.ph = .data ∨ (w ≠ 3 ∧ w ≠ 4 ∧ w ≠ 5)) → t.rq = s.rq

/-- 41_block_absorb.md R76, 10_state.md R24: two states that differ only in the high halves of BC and NC give the same
responses now and later, whatever the host does. -/
def Obligations.HighCounterHalvesAreNeverObserved : Prop :=
  ∀ (s : State) (bc' nc' : Counter), bc'.toNat % 2 ^ 32 = s.bc.toNat % 2 ^ 32 →
    nc'.toNat % 2 ^ 32 = s.nc.toNat % 2 ^ 32 → ∀ k, observed k { s with bc := bc', nc := nc' } = observed k s

/-! ### The commands -/

/-- 40_session_commands.md R54: the word 0 is NOP, which changes nothing. -/
def Obligations.NopChangesNothing : Prop := decode 0x00000000 = .ok .nop ∧ ∀ s : State, exec .nop s = .next s

/-- 40_session_commands.md R55: the word 1 is START, which clears H, BC, NC and INIT and changes nothing else. -/
def Obligations.StartClearsTheSessionAndNothingElse : Prop :=
  decode 0x00000001 = .ok .start ∧
  ∀ s : State, ∃ t, exec .start s = .next t ∧ (∀ i : Fin 16, t.h[i] = 0) ∧ t.bc = 0 ∧ t.nc = 0 ∧ t.init = false ∧
    t.err = s.err ∧ t.errcode = s.errcode ∧ t.ph = s.ph ∧ t.rem = s.rem ∧ t.disc = s.disc ∧ t.sb = s.sb ∧
    t.sbn = s.sbn ∧ t.rq = s.rq ∧ t.inp = s.inp

/-- 40_session_commands.md R56: a header with 02 in its low byte is UPDATE with LEN in its high 24 bits; it sets the parser to
take LEN bytes and changes nothing else; with LEN = 0 it changes nothing. -/
def Obligations.UpdateHeaderAwaitsItsPayload : Prop :=
  (∀ h : Word, h.toNat % 256 = 2 → decode h = .ok (.update (BitVec.ofNat 24 (h.toNat / 256)))) ∧
  ∀ (s : State) (len : BitVec 24),
    exec (.update len) s =
      if len.toNat = 0 then .next s else .next { s with ph := .data, rem := len, disc := false, sbn := 0 }

/-- 40_session_commands.md R63, 10_state.md R17: the word 5 is RDSTAT, which answers one word: INIT in bit 0, ERR in bit 1,
ERRCODE in bits 7:4, zeros elsewhere. -/
def Obligations.RdstatAnswersTheStatusWord : Prop :=
  decode 0x00000005 = .ok .rdstat ∧
  ∀ s : State, ∃ w : Word, exec .rdstat s = .next { s with rq := s.rq ++ [w] } ∧
    w.toNat = (if s.init then 1 else 0) + (if s.err then 2 else 0) + 16 * s.errcode.toNat

/-- 42_digest_readout.md R80: the word 3 is RDDIG, which answers the sixteen words of H in order and changes nothing else. -/
def Obligations.RddigAnswersTheHashWords : Prop :=
  decode 0x00000003 = .ok .rddig ∧
  ∀ s : State, ∃ ws : List Word, exec .rddig s = .next { s with rq := s.rq ++ ws } ∧ ws.length = 16 ∧
    ∀ i : Fin 16, ws[i.val]? = some s.h[i]

/-- 42_digest_readout.md R81, R82, R83: the word 4 is RDHEX, which answers 32 words; character t of the
text, in lane t mod 4 of word t div 4, is the ASCII code of the lowercase hexadecimal digit of nibble
7 - t mod 8 of H[t div 8]. -/
def Obligations.RdhexAnswersTheDigestText : Prop :=
  decode 0x00000004 = .ok .rdhex ∧
  ∀ s : State, ∃ ws : List Word, exec .rdhex s = .next { s with rq := s.rq ++ ws } ∧ ws.length = 32 ∧
    ∀ t : Fin 128, ∃ w, ws[t.val / 4]? = some w ∧
      let nibble := (s.h[t.val / 8]'(by omega)).toNat / 16 ^ (7 - t.val % 8) % 16
      w.toNat / 256 ^ (t.val % 4) % 256 = if nibble < 10 then 0x30 + nibble else 0x61 + (nibble - 10)

/-- 30_encoding.md R46: a reserved opcode raises code 1 and has no other effect. -/
def Obligations.ReservedOpcodesRaiseIllegalOpcode : Prop :=
  ∀ (s : State) (op rsv : BitVec 4) (len : BitVec 24),
    let t := { s with err := true, errcode := if s.err then s.errcode else 1 }
    exec (.reserved67 op rsv len) s = .next t ∧ exec (.reserved8F op rsv len) s = .next t

/-- 20_memory.md R34: a read changes only RQ, and read again at once it gives the same words. -/
def Obligations.ReadsArePureAndRepeat : Prop :=
  ∀ (s : State) (i : Instr), i = .rddig ∨ i = .rdhex ∨ i = .rdstat →
    ∃ ws, exec i s = .next { s with rq := s.rq ++ ws } ∧
      exec i { s with rq := s.rq ++ ws } = .next { s with rq := (s.rq ++ ws) ++ ws }

/-- 42_digest_readout.md R85: the unpacked RDHEX words are 128 characters, and they determine the sixteen words of H. -/
def Obligations.DigestTextDeterminesTheHash : Prop :=
  ∀ h h' : Block, (unpackText (hexWords h)).length = 128 ∧
    (unpackText (hexWords h) = unpackText (hexWords h') → h = h')

/-- 70_reset_and_hazards.md R108: after reset START changes nothing, RDDIG answers sixteen zero words, RDHEX 32 words of
"0000". -/
def Obligations.ResetReadsAsTheEmptyDigest : Prop :=
  exec .start State.reset = .next State.reset ∧
  exec .rddig State.reset = .next { State.reset with rq := List.replicate 16 0 } ∧
  exec .rdhex State.reset = .next { State.reset with rq := List.replicate 32 0x30303030 }

/-! ### Absorbing -/

/-- 41_block_absorb.md R66 to R72: the PermutationInput, byte by byte: the constant, the zero-padded chunk, the low half of
the byte counter, 0, the low half of the block nonce, 0. -/
def Obligations.FormattedBlockHoldsConstantChunkAndCounters : Prop :=
  ∀ (buf : Chunk) (len : Nat) (bc nc : Counter),
    (∀ j : Fin 16, ((formatBlock buf len bc nc)[j.val / 4]'(by omega)).toNat / 256 ^ (j.val % 4) % 256
      = ("expand 32-byte k".toList.getD j.val ' ').toNat) ∧
    (∀ j : Fin 32, ((formatBlock buf len bc nc)[4 + j.val / 4]'(by omega)).toNat / 256 ^ (j.val % 4) % 256
      = if j.val < len then buf[j].toNat else 0) ∧
    (formatBlock buf len bc nc)[12].toNat = bc.toNat % 2 ^ 32 ∧ (formatBlock buf len bc nc)[13] = 0 ∧
    (formatBlock buf len bc nc)[14].toNat = nc.toNat % 2 ^ 32 ∧ (formatBlock buf len bc nc)[15] = 0

/-- 41_block_absorb.md R65, R69, R71, R74: absorbing a chunk adds its length to BC before the block is formatted and 1 to NC
after, assigns or folds the output, sets INIT and changes nothing else. -/
def Obligations.AbsorbingAChunkUpdatesTheSession : Prop :=
  ∀ (s : State) (buf : Chunk) (len : Nat), 1 ≤ len → len ≤ 32 →
    ∃ (bc nc : Counter) (h : Block),
      absorbBlock buf len s = { s with bc := bc, nc := nc, init := true, h := h } ∧
      bc.toNat = (s.bc.toNat + len) % 2 ^ 64 ∧ nc.toNat = (s.nc.toNat + 1) % 2 ^ 64 ∧
      ∀ i : Fin 16, h[i] =
        if s.init then s.h[i] ^^^ (chachaPerm (formatBlock buf len bc s.nc))[i]
        else (chachaPerm (formatBlock buf len bc s.nc))[i]

/-- 41_block_absorb.md R75: after the chunks of a fresh session H is, word by word, the XOR of their permutation outputs. -/
def Obligations.HashIsTheXorOfTheOutputs : Prop :=
  ∀ (s : State) (cs : List (Chunk × Nat)), s.init = false → cs ≠ [] →
    ∃ ps : List Block, ps.length = cs.length ∧
      (∀ (j : Nat) (c : Chunk × Nat), cs[j]? = some c →
        ps[j]? = some (chachaPerm (formatBlock c.1 c.2
          (s.bc + BitVec.ofNat 64 ((cs.take (j + 1)).map Prod.snd).sum) (s.nc + BitVec.ofNat 64 j)))) ∧
      ∀ i : Fin 16, (cs.foldl (fun u c => absorbBlock c.1 c.2 u) s).h[i] = ps.foldl (fun x p => x ^^^ p[i]) 0

/-- 41_block_absorb.md R79: while INIT = 0 implies H = 0, assigning the first output and folding it give the same H. -/
def Obligations.AssigningAndFoldingTheFirstOutputAgree : Prop :=
  ∀ (s : State) (buf : Chunk) (len : Nat), (s.init = false → ∀ i : Fin 16, s.h[i] = 0) →
    ∀ i : Fin 16, (absorbBlock buf len s).h[i] =
      s.h[i] ^^^ (chachaPerm (formatBlock buf len (s.bc + BitVec.ofNat 64 len) s.nc))[i]

/-- 41_block_absorb.md R78: two blocks of one session, fewer than 2^32 apart from its start, have different permutation
inputs whatever their chunks. -/
def Obligations.BlocksOfASessionHaveDifferentInputs : Prop :=
  ∀ (s : State) (cs : List (Chunk × Nat)) (buf buf' : Chunk) (len len' : Nat) (bc bc' : Counter),
    s.nc.toNat + cs.length < 2 ^ 32 → cs ≠ [] →
    formatBlock buf len bc s.nc ≠ formatBlock buf' len' bc' (cs.foldl (fun u c => absorbBlock c.1 c.2 u) s).nc

/-- 41_block_absorb.md R77: a chunk and the same chunk with zero bytes added have the same payload words and different
words 12. -/
def Obligations.PaddingIsTheSameButTheByteCountIsNot : Prop :=
  ∀ (buf buf' : Chunk) (len k : Nat) (bc nc : Counter), 1 ≤ k → len + k ≤ 32 →
    (∀ i : Fin 32, i.val < len → buf'[i] = buf[i]) → (∀ i : Fin 32, len ≤ i.val → i.val < len + k → buf'[i] = 0) →
    let x := formatBlock buf len (bc + BitVec.ofNat 64 len) nc
    let y := formatBlock buf' (len + k) (bc + BitVec.ofNat 64 (len + k)) nc
    (∀ i : Fin 16, i.val ≠ 12 → x[i] = y[i]) ∧ x[12] ≠ y[12]

/-- 40_session_commands.md R58: the chunks of a payload are the payload in order, ceil(N/32) of them, each of 1 to 32
bytes, only the last one shorter than 32. -/
def Obligations.ChunksPartitionThePayload : Prop :=
  ∀ payload : List Byte,
    (chunksOf payload).flatten = payload ∧ (chunksOf payload).length = (payload.length + 31) / 32 ∧
    (∀ c ∈ chunksOf payload, 1 ≤ c.length ∧ c.length ≤ 32) ∧ (∀ c ∈ (chunksOf payload).dropLast, c.length = 32)

/-- 40_session_commands.md R59, 20_memory.md R31, R33: an UPDATE header and its data words, one step each, have the effect
of absorbing the payload's chunks one after another, whatever stands in the unused lanes of the last word. -/
def Obligations.UpdatePacketAbsorbsItsPayload : Prop :=
  ∀ (s : State) (payload : List Byte) (ds : List Word) (rest : List HostMove),
    s.ph = .hdr → s.TakesWords → payload.length < 2 ^ 24 → ds.length = (payload.length + 3) / 4 →
    payloadOf payload.length ds = payload →
    s.inp = sends (encode (.update (BitVec.ofNat 24 payload.length)) :: ds) rest →
    ∃ t, run (1 + ds.length) s = .next t ∧ t.session = (absorbPayload payload s).session ∧ t.ph = .hdr ∧
      t.rq = s.rq ∧ t.err = s.err ∧ t.errcode = s.errcode ∧ t.inp = rest

/-- 40_session_commands.md R59: absorbing a payload B adds |B| to BC and ceil(|B|/32) to NC, and sets INIT if B is not
empty. -/
def Obligations.AbsorbingAPayloadCountsBytesAndBlocks : Prop :=
  ∀ (s : State) (payload : List Byte),
    (absorbPayload payload s).bc.toNat = (s.bc.toNat + payload.length) % 2 ^ 64 ∧
    (absorbPayload payload s).nc.toNat = (s.nc.toNat + (payload.length + 31) / 32) % 2 ^ 64 ∧
    ((absorbPayload payload s).init = true ↔ s.init = true ∨ payload ≠ [])

/-- 40_session_commands.md R61: two payloads absorbed one after the other are one payload absorbed, where the first one's
length is a multiple of 32. -/
def Obligations.SplitAtMultiplesOf32IsOneUpdate : Prop :=
  ∀ (s : State) (b1 b2 : List Byte), b1.length % 32 = 0 →
    absorbPayload b2 (absorbPayload b1 s) = absorbPayload (b1 ++ b2) s

/-- 40_session_commands.md R61, 70_reset_and_hazards.md R114, 95_test_vectors.md V-SES-4: a split elsewhere is not one UPDATE: "abc" then "def"
gives another HashState than "abcdef". -/
def Obligations.SplitElsewhereChangesTheHash : Prop :=
  (absorbPayload [0x64, 0x65, 0x66] (absorbPayload [0x61, 0x62, 0x63] State.reset)).h ≠
    (absorbPayload [0x61, 0x62, 0x63, 0x64, 0x65, 0x66] State.reset).h

/-- 30_encoding.md R51: the pieces into which the pseudo-instruction `update` cuts a long payload fit a header, and
absorbed one after another they are the payload absorbed whole. -/
def Obligations.UpdateCallPiecesAreOneUpdate : Prop :=
  ∀ (s : State) (payload : List Byte),
    (∀ b ∈ pieces splitSize payload, b.length < 2 ^ 24) ∧
    (pieces splitSize payload).foldl (fun u b => absorbPayload b u) s = absorbPayload payload s

/-- 40_session_commands.md R64: START and an UPDATE leave H, BC, NC and INIT as the same packets leave them after reset,
whatever the engine did before. -/
def Obligations.StartThenUpdateIsIndependentOfThePast : Prop :=
  ∀ (s : State) (payload : List Byte) (rest : List HostMove),
    s.ph = .hdr → s.TakesWords → payload.length < 2 ^ 24 →
    let ws := encode .start :: updatePacket payload
    ∃ t u, run ws.length { s with inp := sends ws rest } = .next t ∧
      run ws.length { State.reset with inp := sends ws rest } = .next u ∧ t.session = u.session

/-- 30_encoding.md R51, 40_session_commands.md R62, R64: the source's `start(B)` and then `digest()`, as packets, from any
header position: the responses added are the digest text of B absorbed into the reset state, however long B is. -/
def Obligations.StartThenDigestAnswersTheDigestOfThePayload : Prop :=
  ∀ (s : State) (payload : List Byte) (rest : List HostMove),
    s.ph = .hdr → s.TakesWords →
    let ws := startCall payload ++ digestCall
    ∃ t, run ws.length { s with inp := sends ws rest } = .next t ∧
      t.rq = s.rq ++ hexWords (absorbPayload payload State.reset).h ∧
      t.session = (absorbPayload payload State.reset).session ∧
      t.ph = .hdr ∧ t.err = s.err ∧ t.errcode = s.errcode ∧ t.inp = rest

/-! ### The permutation core -/

/-- 43_permutation.md R91: rotl32 moves bit i to bit (i + n) mod 32, for every n it is defined for. -/
def Obligations.RotationMovesEveryBit : Prop :=
  ∀ (x : Word) (n i : Nat), 1 ≤ n → n ≤ 31 → i < 32 → (rotl32 x n).getLsbD ((i + n) % 32) = x.getLsbD i

/-- 43_permutation.md R90: the quarter-round is its twelve operations in order. -/
def Obligations.QuarterRoundIsItsTwelveOperations : Prop :=
  ∀ a0 b0 c0 d0 a1 b1 c1 d1 a2 b2 c2 d2 : Word,
    a1 = a0 + b0 → d1 = (d0 ^^^ a1).rotateLeft 16 → c1 = c0 + d1 → b1 = (b0 ^^^ c1).rotateLeft 12 →
    a2 = a1 + b1 → d2 = (d1 ^^^ a2).rotateLeft 8 → c2 = c1 + d2 → b2 = (b1 ^^^ c2).rotateLeft 7 →
    quarterRound a0 b0 c0 d0 = (a2, b2, c2, d2)

/-- 43_permutation.md R87, R88, R92: a quarter-round of four different places writes its four results to them and leaves
the other twelve words alone. -/
def Obligations.QuarterRoundTouchesOnlyItsFourWords : Prop :=
  ∀ (x : Block) (q : Quad), q ∈ columnQuads ++ diagonalQuads →
    let y := quarterRoundAt x q
    (y[q.a], y[q.b], y[q.c], y[q.d]) = quarterRound x[q.a] x[q.b] x[q.c] x[q.d] ∧
    ∀ i : Fin 16, i ≠ q.a → i ≠ q.b → i ≠ q.c → i ≠ q.d → y[i] = x[i]

/-- 43_permutation.md R92: inside a column round, and inside a diagonal round, the order of the quarter-rounds does not
matter. -/
def Obligations.OrderInsideARoundDoesNotMatter : Prop :=
  ∀ (x : Block) (qs : List Quad),
    (qs.Perm columnQuads → qs.foldl quarterRoundAt x = columnRound x) ∧
    (qs.Perm diagonalQuads → qs.foldl quarterRoundAt x = diagonalRound x)

/-- 43_permutation.md R90, 90_conflicts.md C9: without the feedforward the rounds are a bijection. -/
def Obligations.DoubleRoundIsABijection : Prop := Function.Bijective doubleRound

/-- 43_permutation.md R93: networks of any number of double rounds a step, and of half a double round a step, compute the
same rounds; at every depth R6 allows, the core is ChaChaPerm. -/
def Obligations.UnrolledNetworksComputeTheSameFunction : Prop :=
  (∀ (k n : Nat) (x : Block), networkRounds k n x = repeatRound doubleRound (k * n) x) ∧
  (∀ (n : Nat) (x : Block), halfStepRounds true (2 * n) x = repeatRound doubleRound n x) ∧
  (∀ (d : UnrollDepth) (input : Block), unrolledPerm d input = chachaPerm input)

/-- 43_permutation.md R86, 95_test_vectors.md V-PERM-2, V-PERM-3: two values of the core. -/
def Obligations.PermutationVectors : Prop :=
  chachaPerm (Vector.replicate 16 0) = Vector.replicate 16 0 ∧
  chachaPerm #v[0x61707865, 0x3320646e, 0x79622d32, 0x6b206574, 0, 0, 0, 0, 0, 0, 0, 0, 0, 0, 0, 0] =
    #v[0xade0b876, 0x903df1a0, 0xe56a5d40, 0x28bd8653, 0xb819d2bd, 0x1aed8da0, 0xccef36a8, 0xc70d778b,
      0x7c5941da, 0x8d485751, 0x3fe02477, 0x374ad8b8, 0xf4b8436a, 0x1ca11815, 0x69b687c3, 0x8665eeb2]
end

