-- ==== Sys2Proof/Laws/State.lean ====
section
/-! SUPPORT. What each named update of the state does to each field, so that no proof unfolds a record update. -/

namespace Sys2Proof.Machine

section takeMove
variable (rest : List HostMove) (s : State)
@[simp] theorem takeMove_h : (takeMove rest s).h = s.h := rfl
@[simp] theorem takeMove_bc : (takeMove rest s).bc = s.bc := rfl
@[simp] theorem takeMove_nc : (takeMove rest s).nc = s.nc := rfl
@[simp] theorem takeMove_init : (takeMove rest s).init = s.init := rfl
@[simp] theorem takeMove_err : (takeMove rest s).err = s.err := rfl
@[simp] theorem takeMove_errcode : (takeMove rest s).errcode = s.errcode := rfl
@[simp] theorem takeMove_ph : (takeMove rest s).ph = s.ph := rfl
@[simp] theorem takeMove_rem : (takeMove rest s).rem = s.rem := rfl
@[simp] theorem takeMove_disc : (takeMove rest s).disc = s.disc := rfl
@[simp] theorem takeMove_sb : (takeMove rest s).sb = s.sb := rfl
@[simp] theorem takeMove_sbn : (takeMove rest s).sbn = s.sbn := rfl
@[simp] theorem takeMove_rq : (takeMove rest s).rq = s.rq := rfl
@[simp] theorem takeMove_inp : (takeMove rest s).inp = rest := rfl
end takeMove

section rspWrite
variable (ws : List Word) (s : State)
@[simp] theorem rspWrite_h : (rspWrite ws s).h = s.h := rfl
@[simp] theorem rspWrite_bc : (rspWrite ws s).bc = s.bc := rfl
@[simp] theorem rspWrite_nc : (rspWrite ws s).nc = s.nc := rfl
@[simp] theorem rspWrite_init : (rspWrite ws s).init = s.init := rfl
@[simp] theorem rspWrite_err : (rspWrite ws s).err = s.err := rfl
@[simp] theorem rspWrite_errcode : (rspWrite ws s).errcode = s.errcode := rfl
@[simp] theorem rspWrite_ph : (rspWrite ws s).ph = s.ph := rfl
@[simp] theorem rspWrite_rem : (rspWrite ws s).rem = s.rem := rfl
@[simp] theorem rspWrite_disc : (rspWrite ws s).disc = s.disc := rfl
@[simp] theorem rspWrite_sb : (rspWrite ws s).sb = s.sb := rfl
@[simp] theorem rspWrite_sbn : (rspWrite ws s).sbn = s.sbn := rfl
@[simp] theorem rspWrite_rq : (rspWrite ws s).rq = s.rq ++ ws := rfl
@[simp] theorem rspWrite_inp : (rspWrite ws s).inp = s.inp := rfl
end rspWrite

section dropResponse
variable  (s : State)
@[simp] theorem dropResponse_h : (dropResponse s).h = s.h := rfl
@[simp] theorem dropResponse_bc : (dropResponse s).bc = s.bc := rfl
@[simp] theorem dropResponse_nc : (dropResponse s).nc = s.nc := rfl
@[simp] theorem dropResponse_init : (dropResponse s).init = s.init := rfl
@[simp] theorem dropResponse_err : (dropResponse s).err = s.err := rfl
@[simp] theorem dropResponse_errcode : (dropResponse s).errcode = s.errcode := rfl
@[simp] theorem dropResponse_ph : (dropResponse s).ph = s.ph := rfl
@[simp] theorem dropResponse_rem : (dropResponse s).rem = s.rem := rfl
@[simp] theorem dropResponse_disc : (dropResponse s).disc = s.disc := rfl
@[simp] theorem dropResponse_sb : (dropResponse s).sb = s.sb := rfl
@[simp] theorem dropResponse_sbn : (dropResponse s).sbn = s.sbn := rfl
@[simp] theorem dropResponse_rq : (dropResponse s).rq = s.rq.tail := rfl
@[simp] theorem dropResponse_inp : (dropResponse s).inp = s.inp := rfl
end dropResponse

section beginPayload
variable (len : BitVec 24) (discard : Bool) (s : State)
@[simp] theorem beginPayload_h : (beginPayload len discard s).h = s.h := rfl
@[simp] theorem beginPayload_bc : (beginPayload len discard s).bc = s.bc := rfl
@[simp] theorem beginPayload_nc : (beginPayload len discard s).nc = s.nc := rfl
@[simp] theorem beginPayload_init : (beginPayload len discard s).init = s.init := rfl
@[simp] theorem beginPayload_err : (beginPayload len discard s).err = s.err := rfl
@[simp] theorem beginPayload_errcode : (beginPayload len discard s).errcode = s.errcode := rfl
@[simp] theorem beginPayload_ph : (beginPayload len discard s).ph = .data := rfl
@[simp] theorem beginPayload_rem : (beginPayload len discard s).rem = len := rfl
@[simp] theorem beginPayload_disc : (beginPayload len discard s).disc = discard := rfl
@[simp] theorem beginPayload_sb : (beginPayload len discard s).sb = s.sb := rfl
@[simp] theorem beginPayload_sbn : (beginPayload len discard s).sbn = 0 := rfl
@[simp] theorem beginPayload_rq : (beginPayload len discard s).rq = s.rq := rfl
@[simp] theorem beginPayload_inp : (beginPayload len discard s).inp = s.inp := rfl
end beginPayload

section clearSession
variable  (s : State)
@[simp] theorem clearSession_h : (clearSession s).h = Vector.replicate 16 0 := rfl
@[simp] theorem clearSession_bc : (clearSession s).bc = 0 := rfl
@[simp] theorem clearSession_nc : (clearSession s).nc = 0 := rfl
@[simp] theorem clearSession_init : (clearSession s).init = false := rfl
@[simp] theorem clearSession_err : (clearSession s).err = s.err := rfl
@[simp] theorem clearSession_errcode : (clearSession s).errcode = s.errcode := rfl
@[simp] theorem clearSession_ph : (clearSession s).ph = s.ph := rfl
@[simp] theorem clearSession_rem : (clearSession s).rem = s.rem := rfl
@[simp] theorem clearSession_disc : (clearSession s).disc = s.disc := rfl
@[simp] theorem clearSession_sb : (clearSession s).sb = s.sb := rfl
@[simp] theorem clearSession_sbn : (clearSession s).sbn = s.sbn := rfl
@[simp] theorem clearSession_rq : (clearSession s).rq = s.rq := rfl
@[simp] theorem clearSession_inp : (clearSession s).inp = s.inp := rfl
end clearSession

section resetEngine
variable  (s : State)
@[simp] theorem resetEngine_h : (resetEngine s).h = State.reset.h := rfl
@[simp] theorem resetEngine_bc : (resetEngine s).bc = State.reset.bc := rfl
@[simp] theorem resetEngine_nc : (resetEngine s).nc = State.reset.nc := rfl
@[simp] theorem resetEngine_init : (resetEngine s).init = State.reset.init := rfl
@[simp] theorem resetEngine_err : (resetEngine s).err = State.reset.err := rfl
@[simp] theorem resetEngine_errcode : (resetEngine s).errcode = State.reset.errcode := rfl
@[simp] theorem resetEngine_ph : (resetEngine s).ph = State.reset.ph := rfl
@[simp] theorem resetEngine_rem : (resetEngine s).rem = State.reset.rem := rfl
@[simp] theorem resetEngine_disc : (resetEngine s).disc = State.reset.disc := rfl
@[simp] theorem resetEngine_sb : (resetEngine s).sb = State.reset.sb := rfl
@[simp] theorem resetEngine_sbn : (resetEngine s).sbn = State.reset.sbn := rfl
@[simp] theorem resetEngine_rq : (resetEngine s).rq = State.reset.rq := rfl
@[simp] theorem resetEngine_inp : (resetEngine s).inp = s.inp := rfl
end resetEngine

section raiseCmdError
variable (c : CmdError) (s : State)
@[simp] theorem raiseCmdError_h : (raiseCmdError c s).h = s.h := by unfold raiseCmdError; split <;> simp_all
@[simp] theorem raiseCmdError_bc : (raiseCmdError c s).bc = s.bc := by unfold raiseCmdError; split <;> simp_all
@[simp] theorem raiseCmdError_nc : (raiseCmdError c s).nc = s.nc := by unfold raiseCmdError; split <;> simp_all
@[simp] theorem raiseCmdError_init : (raiseCmdError c s).init = s.init := by unfold raiseCmdError; split <;> simp_all
@[simp] theorem raiseCmdError_err : (raiseCmdError c s).err = true := by unfold raiseCmdError; split <;> simp_all
@[simp] theorem raiseCmdError_errcode : (raiseCmdError c s).errcode = if s.err then s.errcode else errorCode c := by unfold raiseCmdError; split <;> simp_all
@[simp] theorem raiseCmdError_ph : (raiseCmdError c s).ph = s.ph := by unfold raiseCmdError; split <;> simp_all
@[simp] theorem raiseCmdError_rem : (raiseCmdError c s).rem = s.rem := by unfold raiseCmdError; split <;> simp_all
@[simp] theorem raiseCmdError_disc : (raiseCmdError c s).disc = s.disc := by unfold raiseCmdError; split <;> simp_all
@[simp] theorem raiseCmdError_sb : (raiseCmdError c s).sb = s.sb := by unfold raiseCmdError; split <;> simp_all
@[simp] theorem raiseCmdError_sbn : (raiseCmdError c s).sbn = s.sbn := by unfold raiseCmdError; split <;> simp_all
@[simp] theorem raiseCmdError_rq : (raiseCmdError c s).rq = s.rq := by unfold raiseCmdError; split <;> simp_all
@[simp] theorem raiseCmdError_inp : (raiseCmdError c s).inp = s.inp := by unfold raiseCmdError; split <;> simp_all
end raiseCmdError

section absorbBlock
variable (buf : Chunk) (len : Nat) (s : State)
@[simp] theorem absorbBlock_h : (absorbBlock buf len s).h = accumulate s.init s.h (chachaPerm (formatBlock buf len (s.bc + BitVec.ofNat 64 len) s.nc)) := rfl
@[simp] theorem absorbBlock_bc : (absorbBlock buf len s).bc = s.bc + BitVec.ofNat 64 len := rfl
@[simp] theorem absorbBlock_nc : (absorbBlock buf len s).nc = s.nc + 1 := rfl
@[simp] theorem absorbBlock_init : (absorbBlock buf len s).init = true := rfl
@[simp] theorem absorbBlock_err : (absorbBlock buf len s).err = s.err := rfl
@[simp] theorem absorbBlock_errcode : (absorbBlock buf len s).errcode = s.errcode := rfl
@[simp] theorem absorbBlock_ph : (absorbBlock buf len s).ph = s.ph := rfl
@[simp] theorem absorbBlock_rem : (absorbBlock buf len s).rem = s.rem := rfl
@[simp] theorem absorbBlock_disc : (absorbBlock buf len s).disc = s.disc := rfl
@[simp] theorem absorbBlock_sb : (absorbBlock buf len s).sb = s.sb := rfl
@[simp] theorem absorbBlock_sbn : (absorbBlock buf len s).sbn = s.sbn := rfl
@[simp] theorem absorbBlock_rq : (absorbBlock buf len s).rq = s.rq := rfl
@[simp] theorem absorbBlock_inp : (absorbBlock buf len s).inp = s.inp := rfl
end absorbBlock

section stageByte
variable (b : Byte) (s : State)
@[simp] theorem stageByte_h : (stageByte b s).h = s.h := rfl
@[simp] theorem stageByte_bc : (stageByte b s).bc = s.bc := rfl
@[simp] theorem stageByte_nc : (stageByte b s).nc = s.nc := rfl
@[simp] theorem stageByte_init : (stageByte b s).init = s.init := rfl
@[simp] theorem stageByte_err : (stageByte b s).err = s.err := rfl
@[simp] theorem stageByte_errcode : (stageByte b s).errcode = s.errcode := rfl
@[simp] theorem stageByte_ph : (stageByte b s).ph = s.ph := rfl
@[simp] theorem stageByte_rem : (stageByte b s).rem = s.rem := rfl
@[simp] theorem stageByte_disc : (stageByte b s).disc = s.disc := rfl
@[simp] theorem stageByte_sb : (stageByte b s).sb = s.sb.setIfInBounds s.sbn.toNat b := rfl
@[simp] theorem stageByte_sbn : (stageByte b s).sbn = s.sbn + 1 := rfl
@[simp] theorem stageByte_rq : (stageByte b s).rq = s.rq := rfl
@[simp] theorem stageByte_inp : (stageByte b s).inp = s.inp := rfl
end stageByte

section absorbStaged
variable (len : Nat) (s : State)
@[simp] theorem absorbStaged_h : (absorbStaged len s).h = (absorbBlock s.sb len s).h := rfl
@[simp] theorem absorbStaged_bc : (absorbStaged len s).bc = (absorbBlock s.sb len s).bc := rfl
@[simp] theorem absorbStaged_nc : (absorbStaged len s).nc = (absorbBlock s.sb len s).nc := rfl
@[simp] theorem absorbStaged_init : (absorbStaged len s).init = true := rfl
@[simp] theorem absorbStaged_err : (absorbStaged len s).err = s.err := rfl
@[simp] theorem absorbStaged_errcode : (absorbStaged len s).errcode = s.errcode := rfl
@[simp] theorem absorbStaged_ph : (absorbStaged len s).ph = s.ph := rfl
@[simp] theorem absorbStaged_rem : (absorbStaged len s).rem = s.rem := rfl
@[simp] theorem absorbStaged_disc : (absorbStaged len s).disc = s.disc := rfl
@[simp] theorem absorbStaged_sb : (absorbStaged len s).sb = s.sb := rfl
@[simp] theorem absorbStaged_sbn : (absorbStaged len s).sbn = 0 := rfl
@[simp] theorem absorbStaged_rq : (absorbStaged len s).rq = s.rq := rfl
@[simp] theorem absorbStaged_inp : (absorbStaged len s).inp = s.inp := rfl
end absorbStaged

section countLanes
variable  (s : State)
@[simp] theorem countLanes_h : (countLanes s).h = s.h := rfl
@[simp] theorem countLanes_bc : (countLanes s).bc = s.bc := rfl
@[simp] theorem countLanes_nc : (countLanes s).nc = s.nc := rfl
@[simp] theorem countLanes_init : (countLanes s).init = s.init := rfl
@[simp] theorem countLanes_err : (countLanes s).err = s.err := rfl
@[simp] theorem countLanes_errcode : (countLanes s).errcode = s.errcode := rfl
@[simp] theorem countLanes_ph : (countLanes s).ph = s.ph := rfl
@[simp] theorem countLanes_rem : (countLanes s).rem = s.rem - BitVec.ofNat 24 (payloadLanes s.rem) := rfl
@[simp] theorem countLanes_disc : (countLanes s).disc = s.disc := rfl
@[simp] theorem countLanes_sb : (countLanes s).sb = s.sb := rfl
@[simp] theorem countLanes_sbn : (countLanes s).sbn = s.sbn := rfl
@[simp] theorem countLanes_rq : (countLanes s).rq = s.rq := rfl
@[simp] theorem countLanes_inp : (countLanes s).inp = s.inp := rfl
end countLanes

end Sys2Proof.Machine
end

