-- ==== Sys2Proof/Laws/Ops.lean ====
section
/-! SUPPORT. What the shared operations leave unchanged: the command error of a malformed header, a payload byte, the last
chunk and a whole data word. -/

namespace Sys2Proof.Machine

section badHeader
variable (w : Word) (c : CmdError) (s : State)
@[simp] theorem badHeader_h : (badHeader w c s).h = s.h := by unfold badHeader; split <;> simp [*]
@[simp] theorem badHeader_bc : (badHeader w c s).bc = s.bc := by unfold badHeader; split <;> simp [*]
@[simp] theorem badHeader_nc : (badHeader w c s).nc = s.nc := by unfold badHeader; split <;> simp [*]
@[simp] theorem badHeader_init : (badHeader w c s).init = s.init := by unfold badHeader; split <;> simp [*]
@[simp] theorem badHeader_err : (badHeader w c s).err = true := by unfold badHeader; split <;> simp [*]
@[simp] theorem badHeader_errcode : (badHeader w c s).errcode = if s.err then s.errcode else errorCode c := by unfold badHeader; split <;> simp [*]
@[simp] theorem badHeader_ph : (badHeader w c s).ph = if opOf w = 2 ∧ lenOf w ≠ 0 then .data else s.ph := by unfold badHeader; split <;> simp [*]
@[simp] theorem badHeader_rem : (badHeader w c s).rem = if opOf w = 2 ∧ lenOf w ≠ 0 then lenOf w else s.rem := by unfold badHeader; split <;> simp [*]
@[simp] theorem badHeader_disc : (badHeader w c s).disc = if opOf w = 2 ∧ lenOf w ≠ 0 then true else s.disc := by unfold badHeader; split <;> simp [*]
@[simp] theorem badHeader_sb : (badHeader w c s).sb = s.sb := by unfold badHeader; split <;> simp [*]
@[simp] theorem badHeader_sbn : (badHeader w c s).sbn = if opOf w = 2 ∧ lenOf w ≠ 0 then 0 else s.sbn := by unfold badHeader; split <;> simp [*]
@[simp] theorem badHeader_rq : (badHeader w c s).rq = s.rq := by unfold badHeader; split <;> simp [*]
@[simp] theorem badHeader_inp : (badHeader w c s).inp = s.inp := by unfold badHeader; split <;> simp [*]
end badHeader

section takeByte
variable (b : Byte) (s : State)
@[simp] theorem takeByte_err : (takeByte s b).err = s.err := by unfold takeByte; split <;> [rfl; (split <;> rfl)]
@[simp] theorem takeByte_errcode : (takeByte s b).errcode = s.errcode := by unfold takeByte; split <;> [rfl; (split <;> rfl)]
@[simp] theorem takeByte_ph : (takeByte s b).ph = s.ph := by unfold takeByte; split <;> [rfl; (split <;> rfl)]
@[simp] theorem takeByte_rem : (takeByte s b).rem = s.rem := by unfold takeByte; split <;> [rfl; (split <;> rfl)]
@[simp] theorem takeByte_disc : (takeByte s b).disc = s.disc := by unfold takeByte; split <;> [rfl; (split <;> rfl)]
@[simp] theorem takeByte_rq : (takeByte s b).rq = s.rq := by unfold takeByte; split <;> [rfl; (split <;> rfl)]
@[simp] theorem takeByte_inp : (takeByte s b).inp = s.inp := by unfold takeByte; split <;> [rfl; (split <;> rfl)]
end takeByte

section takeBytes
variable (bs : List Byte) (s : State)
@[simp] theorem takeBytes_err : (bs.foldl takeByte s).err = s.err := by induction bs generalizing s with
  | nil => rfl
  | cons b bs ih => rw [List.foldl_cons, ih]; simp
@[simp] theorem takeBytes_errcode : (bs.foldl takeByte s).errcode = s.errcode := by induction bs generalizing s with
  | nil => rfl
  | cons b bs ih => rw [List.foldl_cons, ih]; simp
@[simp] theorem takeBytes_ph : (bs.foldl takeByte s).ph = s.ph := by induction bs generalizing s with
  | nil => rfl
  | cons b bs ih => rw [List.foldl_cons, ih]; simp
@[simp] theorem takeBytes_rem : (bs.foldl takeByte s).rem = s.rem := by induction bs generalizing s with
  | nil => rfl
  | cons b bs ih => rw [List.foldl_cons, ih]; simp
@[simp] theorem takeBytes_disc : (bs.foldl takeByte s).disc = s.disc := by induction bs generalizing s with
  | nil => rfl
  | cons b bs ih => rw [List.foldl_cons, ih]; simp
@[simp] theorem takeBytes_rq : (bs.foldl takeByte s).rq = s.rq := by induction bs generalizing s with
  | nil => rfl
  | cons b bs ih => rw [List.foldl_cons, ih]; simp
@[simp] theorem takeBytes_inp : (bs.foldl takeByte s).inp = s.inp := by induction bs generalizing s with
  | nil => rfl
  | cons b bs ih => rw [List.foldl_cons, ih]; simp
end takeBytes

section absorbLast
variable  (s : State)
@[simp] theorem absorbLast_err : (absorbLast s).err = s.err := by unfold absorbLast; split <;> rfl
@[simp] theorem absorbLast_errcode : (absorbLast s).errcode = s.errcode := by unfold absorbLast; split <;> rfl
@[simp] theorem absorbLast_ph : (absorbLast s).ph = s.ph := by unfold absorbLast; split <;> rfl
@[simp] theorem absorbLast_rem : (absorbLast s).rem = s.rem := by unfold absorbLast; split <;> rfl
@[simp] theorem absorbLast_disc : (absorbLast s).disc = s.disc := by unfold absorbLast; split <;> rfl
@[simp] theorem absorbLast_sb : (absorbLast s).sb = s.sb := by unfold absorbLast; split <;> rfl
@[simp] theorem absorbLast_rq : (absorbLast s).rq = s.rq := by unfold absorbLast; split <;> rfl
@[simp] theorem absorbLast_inp : (absorbLast s).inp = s.inp := by unfold absorbLast; split <;> rfl
end absorbLast

section endPayload
variable  (s : State)
@[simp] theorem endPayload_err : (endPayload s).err = s.err := by simp [endPayload]
@[simp] theorem endPayload_errcode : (endPayload s).errcode = s.errcode := by simp [endPayload]
@[simp] theorem endPayload_ph : (endPayload s).ph = .hdr := by simp [endPayload]
@[simp] theorem endPayload_rem : (endPayload s).rem = s.rem := by simp [endPayload]
@[simp] theorem endPayload_disc : (endPayload s).disc = false := by simp [endPayload]
@[simp] theorem endPayload_sb : (endPayload s).sb = s.sb := by simp [endPayload]
@[simp] theorem endPayload_rq : (endPayload s).rq = s.rq := by simp [endPayload]
@[simp] theorem endPayload_inp : (endPayload s).inp = s.inp := by simp [endPayload]
end endPayload

section dataWord
variable (w : Word) (s : State)
@[simp] theorem dataWord_err : (dataWord w s).err = s.err := by simp only [dataWord]; split <;> simp
@[simp] theorem dataWord_errcode : (dataWord w s).errcode = s.errcode := by simp only [dataWord]; split <;> simp
@[simp] theorem dataWord_rq : (dataWord w s).rq = s.rq := by simp only [dataWord]; split <;> simp
@[simp] theorem dataWord_inp : (dataWord w s).inp = s.inp := by simp only [dataWord]; split <;> simp
end dataWord

end Sys2Proof.Machine
end

