-- ==== Sys2Proof/Laws/Absorb.lean ====
section
/-! SUPPORT. Absorbing reads and writes neither stream: every operation of the absorption loop gives the same engine state
whatever RQ and the host's moves are, and leaves both alone. -/

namespace Sys2Proof.Machine

/-- `s` with other contents of the two streams. -/
def withStreams (q : List Word) (m : List HostMove) (s : State) : State := { s with rq := q, inp := m }

theorem takeMove_eq_withStreams (m : List HostMove) (s : State) : takeMove m s = withStreams s.rq m s := rfl

theorem rspWrite_eq_withStreams (ws : List Word) (s : State) : rspWrite ws s = withStreams (s.rq ++ ws) s.inp s := rfl

theorem dropResponse_eq_withStreams (s : State) : dropResponse s = withStreams s.rq.tail s.inp s := rfl

section streams
variable (q : List Word) (m : List HostMove) (s : State)

@[simp] theorem withStreams_rq : (withStreams q m s).rq = q := rfl

@[simp] theorem withStreams_inp : (withStreams q m s).inp = m := rfl

@[simp] theorem withStreams_withStreams (q' : List Word) (m' : List HostMove) :
    withStreams q m (withStreams q' m' s) = withStreams q m s := rfl

theorem absorbBlock_withStreams (buf : Chunk) (len : Nat) :
    absorbBlock buf len (withStreams q m s) = withStreams q m (absorbBlock buf len s) := rfl

theorem takeByte_withStreams (b : Byte) : takeByte (withStreams q m s) b = withStreams q m (takeByte s b) := by
  simp only [takeByte, apply_ite (withStreams q m)]
  rfl

theorem takeBytes_withStreams (bs : List Byte) :
    bs.foldl takeByte (withStreams q m s) = withStreams q m (bs.foldl takeByte s) := by
  induction bs generalizing s with
  | nil => rfl
  | cons b bs ih => rw [List.foldl_cons, takeByte_withStreams, ih]; rfl

theorem absorbLast_withStreams : absorbLast (withStreams q m s) = withStreams q m (absorbLast s) := by
  simp only [absorbLast, apply_ite (withStreams q m)]
  rfl

theorem endPayload_withStreams : endPayload (withStreams q m s) = withStreams q m (endPayload s) := by
  unfold endPayload
  rw [absorbLast_withStreams]
  rfl

theorem dataWord_withStreams (w : Word) : dataWord w (withStreams q m s) = withStreams q m (dataWord w s) := by
  have hrem : (withStreams q m s).rem = s.rem := rfl
  have hcount : ∀ u : State, countLanes (withStreams q m u) = withStreams q m (countLanes u) := fun _ => rfl
  simp only [dataWord, hrem, takeBytes_withStreams, hcount, endPayload_withStreams, apply_ite (withStreams q m)]
  rfl

theorem raiseCmdError_withStreams (c : CmdError) :
    raiseCmdError c (withStreams q m s) = withStreams q m (raiseCmdError c s) := by
  simp only [raiseCmdError, apply_ite (withStreams q m)]
  rfl

theorem badHeader_withStreams (w : Word) (c : CmdError) :
    badHeader w c (withStreams q m s) = withStreams q m (badHeader w c s) := by
  simp only [badHeader, raiseCmdError_withStreams, apply_ite (withStreams q m)]
  rfl

end streams

/-- The command error as one record: ERR is set, ERRCODE keeps the first code. -/
theorem raiseCmdError_eq (c : CmdError) (s : State) :
    raiseCmdError c s = { s with err := true, errcode := if s.err then s.errcode else errorCode c } := by
  unfold raiseCmdError
  split
  · next e => cases s; simp_all
  · next e => cases s; simp_all

/-- `s` with another staging buffer and fill count. -/
def withStaging (sb : Chunk) (n : BitVec 6) (s : State) : State := { s with sb := sb, sbn := n }

section staging
variable (sb : Chunk) (n : BitVec 6) (s : State)

@[simp] theorem withStaging_sb : (withStaging sb n s).sb = sb := rfl

@[simp] theorem withStaging_sbn : (withStaging sb n s).sbn = n := rfl

@[simp] theorem withStaging_h : (withStaging sb n s).h = s.h := rfl

@[simp] theorem withStaging_bc : (withStaging sb n s).bc = s.bc := rfl

@[simp] theorem withStaging_nc : (withStaging sb n s).nc = s.nc := rfl

@[simp] theorem withStaging_init : (withStaging sb n s).init = s.init := rfl

@[simp] theorem withStaging_err : (withStaging sb n s).err = s.err := rfl

@[simp] theorem withStaging_errcode : (withStaging sb n s).errcode = s.errcode := rfl

@[simp] theorem withStaging_ph : (withStaging sb n s).ph = s.ph := rfl

@[simp] theorem withStaging_rem : (withStaging sb n s).rem = s.rem := rfl

@[simp] theorem withStaging_disc : (withStaging sb n s).disc = s.disc := rfl

@[simp] theorem withStaging_rq : (withStaging sb n s).rq = s.rq := rfl

@[simp] theorem withStaging_inp : (withStaging sb n s).inp = s.inp := rfl

@[simp] theorem withStaging_withStaging (sb' : Chunk) (n' : BitVec 6) :
    withStaging sb n (withStaging sb' n' s) = withStaging sb n s := rfl

theorem absorbBlock_withStaging (buf : Chunk) (len : Nat) :
    absorbBlock buf len (withStaging sb n s) = withStaging sb n (absorbBlock buf len s) := rfl

theorem stageByte_eq_withStaging (b : Byte) :
    stageByte b s = withStaging (s.sb.setIfInBounds s.sbn.toNat b) (s.sbn + 1) s := rfl

theorem absorbStaged_eq_withStaging (len : Nat) :
    absorbStaged len s = withStaging s.sb 0 (absorbBlock s.sb len s) := rfl

end staging

/-- The staging buffer after `bytes` have been put behind the `n` bytes it holds. -/
def staging (sb : Chunk) (n : Nat) (bytes : List Byte) : Chunk :=
  Vector.ofFn fun i : Fin 32 => if n ≤ i.val ∧ i.val < n + bytes.length then bytes.getD (i.val - n) 0 else sb[i]

theorem staging_nil (sb : Chunk) (n : Nat) : staging sb n [] = sb := by
  apply Vector.ext
  intro i hi
  simp only [staging, Vector.getElem_ofFn, Fin.getElem_fin, List.length_nil]
  rw [if_neg (by omega)]

theorem staging_cons (sb : Chunk) (n : Nat) (b : Byte) (bytes : List Byte) (hn : n < 32) :
    staging (sb.setIfInBounds n b) (n + 1) bytes = staging sb n (b :: bytes) := by
  apply Vector.ext
  intro i hi
  simp only [staging, Vector.getElem_ofFn, List.length_cons, Fin.getElem_fin]
  rcases Nat.lt_trichotomy i n with c | rfl | c
  · rw [if_neg (by omega), if_neg (by omega), Vector.getElem_setIfInBounds_ne _ (by omega)]
  · simp
  · obtain ⟨d, rfl⟩ : ∃ d, i = n + 1 + d := ⟨i - (n + 1), by omega⟩
    rw [show n + 1 + d - (n + 1) = d by omega, show n + 1 + d - n = d + 1 by omega, List.getD_cons_succ,
      Vector.getElem_setIfInBounds_ne _ (by omega)]
    by_cases x : d < bytes.length
    · rw [if_pos (by omega), if_pos (by omega)]
    · rw [if_neg (by omega), if_neg (by omega)]

theorem takeByte_discarded {s : State} (b : Byte) (hd : s.disc = true) : takeByte s b = s := if_pos hd

theorem takeBytes_discarded {s : State} (bytes : List Byte) (hd : s.disc = true) : bytes.foldl takeByte s = s := by
  induction bytes with
  | nil => rfl
  | cons b bytes ih => rw [List.foldl_cons, takeByte_discarded b hd, ih]

/-- A payload byte that is kept and has a place: the chunk is absorbed when it is full. -/
theorem takeByte_kept {s : State} (b : Byte) (hd : s.disc = false) (hn : s.sbn.toNat < 32) :
    takeByte s b =
      if s.sbn.toNat + 1 = 32 then
        withStaging (staging s.sb s.sbn.toNat [b]) 0 (absorbBlock (staging s.sb s.sbn.toNat [b]) 32 s)
      else withStaging (staging s.sb s.sbn.toNat [b]) (s.sbn + 1) s := by
  have full : (stageByte b s).sbn = 32 ↔ s.sbn.toNat + 1 = 32 := by
    rw [stageByte_sbn, ← BitVec.toNat_inj, BitVec.toNat_add]
    simp
    omega
  rw [← staging_cons _ _ _ _ hn, staging_nil, takeByte, if_neg (by simp [hd])]
  simp only [full]
  rfl

/-- Payload bytes that are kept and have room: they are staged, and the chunk is absorbed if they fill it. -/
theorem takeBytes_kept {s : State} (bytes : List Byte) (hd : s.disc = false) (hn : s.sbn.toNat < 32)
    (hroom : s.sbn.toNat + bytes.length ≤ 32) :
    bytes.foldl takeByte s =
      if s.sbn.toNat + bytes.length = 32 then
        withStaging (staging s.sb s.sbn.toNat bytes) 0 (absorbBlock (staging s.sb s.sbn.toNat bytes) 32 s)
      else withStaging (staging s.sb s.sbn.toNat bytes) (s.sbn + BitVec.ofNat 6 bytes.length) s := by
  induction bytes generalizing s with
  | nil =>
    rw [List.length_nil, if_neg (by omega), staging_nil]
    simp [withStaging]
  | cons b bytes ih =>
    rw [List.length_cons] at hroom
    rw [List.foldl_cons, takeByte_kept b hd hn]
    have next : (s.sbn + 1).toNat = s.sbn.toNat + 1 := by
      rw [BitVec.toNat_add]
      simp
      omega
    by_cases last : s.sbn.toNat + 1 = 32
    · obtain rfl : bytes = [] := List.eq_nil_of_length_eq_zero (by omega)
      rw [if_pos last, if_pos (by simpa using last)]
      rfl
    · have rest : staging (staging s.sb s.sbn.toNat [b]) (s.sbn.toNat + 1) bytes = staging s.sb s.sbn.toNat (b :: bytes) := by
        rw [← staging_cons _ _ b [] hn, staging_nil, staging_cons _ _ b bytes hn]
      have count : s.sbn + 1 + BitVec.ofNat 6 bytes.length = s.sbn + BitVec.ofNat 6 (bytes.length + 1) := by
        rw [BitVec.add_assoc]
        congr 1
        apply BitVec.eq_of_toNat_eq
        simp
        omega
      have step := @ih (withStaging (staging s.sb s.sbn.toNat [b]) (s.sbn + 1) s)
        (by rw [withStaging_disc]; exact hd) (by rw [withStaging_sbn, next]; omega) (by rw [withStaging_sbn, next]; omega)
      rw [if_neg last, step]
      simp only [withStaging_sbn, withStaging_sb, next, rest, count, absorbBlock_withStaging, withStaging_withStaging,
        List.length_cons]
      rw [Nat.add_assoc, Nat.add_comm 1]

@[simp] theorem payloadBytes_length (w : Word) (rem : BitVec 24) : (payloadBytes w rem).length = payloadLanes rem := by
  simp [payloadBytes, payloadLanes]

theorem payloadBytes_getD (w : Word) (rem : BitVec 24) (j : Nat) (hj : j < payloadLanes rem) :
    (payloadBytes w rem).getD j 0 = lane w j := by
  have most : payloadLanes rem ≤ 4 := by simp [payloadLanes]
  simp only [payloadBytes, List.getD_eq_getElem?_getD, List.getElem?_take, if_pos hj]
  match j, (by omega : j < 4) with
  | 0, _ | 1, _ | 2, _ | 3, _ => rfl

/-- REM after a data word. -/
theorem toNat_rem_countLanes (s : State) : (countLanes s).rem.toNat = s.rem.toNat - 4 := by
  have := s.rem.isLt
  rw [countLanes_rem, BitVec.toNat_sub_of_le]
  · simp [payloadLanes]
    omega
  · rw [BitVec.le_def]
    simp [payloadLanes]
    omega

/-- The payload is complete with this data word exactly if at most four bytes were to come. -/
theorem rem_countLanes_eq_zero (s : State) : (countLanes s).rem = 0 ↔ s.rem.toNat ≤ 4 := by
  rw [← BitVec.toNat_inj, toNat_rem_countLanes]
  simp
  omega

/-- A data word: its payload bytes are taken, REM is counted down, and the payload ends if it was the last word. -/
theorem dataWord_eq (w : Word) (s : State) :
    dataWord w s =
      if s.rem.toNat ≤ 4 then endPayload (countLanes ((payloadBytes w s.rem).foldl takeByte s))
      else countLanes ((payloadBytes w s.rem).foldl takeByte s) := by
  simp only [dataWord, rem_countLanes_eq_zero, takeBytes_rem]

end Sys2Proof.Machine
end

