-- ==== Sys2Proof/Laws/Encoding.lean ====
section
/-! SUPPORT. The header's fields and the byte lanes of a word, read back from what they were assembled of. -/

namespace Sys2Proof

section header
variable (len : BitVec 24) (rsv op : BitVec 4)

theorem headerWord_eq_append : headerWord len rsv op = len ++ rsv ++ op := by
  apply BitVec.eq_of_toNat_eq
  simp only [headerWord, BitVec.toNat_or, BitVec.toNat_shiftLeft, BitVec.toNat_setWidth, BitVec.toNat_append]
  rw [Nat.mod_eq_of_lt (by omega : len.toNat < 2 ^ 32), Nat.mod_eq_of_lt (by omega : rsv.toNat < 2 ^ 32),
    Nat.mod_eq_of_lt (by omega : op.toNat < 2 ^ 32), Nat.mod_eq_of_lt (by rw [Nat.shiftLeft_eq]; omega),
    Nat.mod_eq_of_lt (by rw [Nat.shiftLeft_eq]; omega), Nat.shiftLeft_or_distrib, ← Nat.shiftLeft_add]

theorem toNat_headerWord : (headerWord len rsv op).toNat = len.toNat * 256 + rsv.toNat * 16 + op.toNat := by
  rw [headerWord_eq_append, BitVec.toNat_append, BitVec.toNat_append, ← Nat.shiftLeft_add_eq_or_of_lt op.isLt,
    ← Nat.shiftLeft_add_eq_or_of_lt rsv.isLt]
  simp only [Nat.shiftLeft_eq]
  omega

@[simp] theorem opOf_headerWord : opOf (headerWord len rsv op) = op := by
  apply BitVec.eq_of_toNat_eq
  rw [opOf, BitVec.extractLsb'_toNat, toNat_headerWord, Nat.shiftRight_zero]
  omega

@[simp] theorem rsvOf_headerWord : rsvOf (headerWord len rsv op) = rsv := by
  apply BitVec.eq_of_toNat_eq
  rw [rsvOf, BitVec.extractLsb'_toNat, toNat_headerWord, Nat.shiftRight_eq_div_pow]
  omega

@[simp] theorem lenOf_headerWord : lenOf (headerWord len rsv op) = len := by
  apply BitVec.eq_of_toNat_eq
  rw [lenOf, BitVec.extractLsb'_toNat, toNat_headerWord, Nat.shiftRight_eq_div_pow]
  omega

end header

section fields
variable (h : Word)

theorem toNat_opOf : (opOf h).toNat = h.toNat % 16 := by
  rw [opOf, BitVec.extractLsb'_toNat, Nat.shiftRight_zero]

theorem toNat_rsvOf : (rsvOf h).toNat = h.toNat / 16 % 16 := by
  rw [rsvOf, BitVec.extractLsb'_toNat, Nat.shiftRight_eq_div_pow]

theorem toNat_lenOf : (lenOf h).toNat = h.toNat / 256 := by
  rw [lenOf, BitVec.extractLsb'_toNat, Nat.shiftRight_eq_div_pow]
  omega

/-- A header is its three fields. -/
theorem headerWord_fields : headerWord (lenOf h) (rsvOf h) (opOf h) = h := by
  apply BitVec.eq_of_toNat_eq
  rw [toNat_headerWord, toNat_opOf, toNat_rsvOf, toNat_lenOf]
  omega

theorem opOf_eq_ofNat : opOf h = BitVec.ofNat 4 (h.toNat % 16) := by
  apply BitVec.eq_of_toNat_eq
  rw [toNat_opOf, BitVec.toNat_ofNat, Nat.mod_mod]

theorem rsvOf_eq_ofNat : rsvOf h = BitVec.ofNat 4 (h.toNat / 16 % 16) := by
  apply BitVec.eq_of_toNat_eq
  rw [toNat_rsvOf, BitVec.toNat_ofNat, Nat.mod_mod]

theorem lenOf_eq_ofNat : lenOf h = BitVec.ofNat 24 (h.toNat / 256) := by
  apply BitVec.eq_of_toNat_eq
  rw [toNat_lenOf, BitVec.toNat_ofNat]
  omega

theorem opOf_eq_two : opOf h = 2 ↔ h.toNat % 16 = 2 := by
  rw [← BitVec.toNat_inj, toNat_opOf]
  rfl

theorem rsvOf_eq_zero : rsvOf h = 0 ↔ h.toNat / 16 % 16 = 0 := by
  rw [← BitVec.toNat_inj, toNat_rsvOf]
  rfl

theorem lenOf_eq_zero : lenOf h = 0 ↔ h.toNat / 256 = 0 := by
  rw [← BitVec.toNat_inj, toNat_lenOf]
  rfl

/-- The decoder's three checks on the header read as a number. -/
theorem decode_eq_checks : decode h =
    if 6 ≤ h.toNat % 16 then .ok (commandOf (opOf h) (rsvOf h) (lenOf h))
    else if h.toNat / 16 % 16 ≠ 0 then .error .reservedBits
    else if h.toNat % 16 ≠ 2 ∧ h.toNat / 256 ≠ 0 then .error .lenNotZero
    else .ok (commandOf (opOf h) (rsvOf h) (lenOf h)) := by
  simp only [decode, toNat_opOf, ne_eq, opOf_eq_two, rsvOf_eq_zero, lenOf_eq_zero]

end fields

namespace Machine

theorem toNat_lane (w : Word) (j : Nat) : (lane w j).toNat = w.toNat / 256 ^ j % 256 := by
  rw [lane, BitVec.extractLsb'_toNat, Nat.shiftRight_eq_div_pow, Nat.pow_mul]

section lanes
variable (b0 b1 b2 b3 : Byte)

theorem toNat_wordOfLanes :
    (wordOfLanes b0 b1 b2 b3).toNat = b0.toNat + b1.toNat * 256 + b2.toNat * 65536 + b3.toNat * 16777216 := by
  have h0 := b0.isLt
  have h1 := b1.isLt
  have h2 := b2.isLt
  have h3 := b3.isLt
  have e1 : b0.toNat ||| b1.toNat <<< 8 = b0.toNat + b1.toNat * 256 := by
    rw [Nat.or_comm, ← Nat.shiftLeft_add_eq_or_of_lt (by omega), Nat.shiftLeft_eq]
    omega
  have e2 : (b0.toNat + b1.toNat * 256) ||| b2.toNat <<< 16 = b0.toNat + b1.toNat * 256 + b2.toNat * 65536 := by
    rw [Nat.or_comm, ← Nat.shiftLeft_add_eq_or_of_lt (by omega), Nat.shiftLeft_eq]
    omega
  have e3 : (b0.toNat + b1.toNat * 256 + b2.toNat * 65536) ||| b3.toNat <<< 24
      = b0.toNat + b1.toNat * 256 + b2.toNat * 65536 + b3.toNat * 16777216 := by
    rw [Nat.or_comm, ← Nat.shiftLeft_add_eq_or_of_lt (by omega), Nat.shiftLeft_eq]
    omega
  have shifted : ∀ (b : Byte) (n : Nat), n ≤ 24 → (b.setWidth 32 <<< n).toNat = b.toNat <<< n := by
    intro b n hn
    rw [BitVec.toNat_shiftLeft, BitVec.toNat_setWidth, Nat.mod_eq_of_lt (by omega : b.toNat < 2 ^ 32), Nat.shiftLeft_eq]
    apply Nat.mod_eq_of_lt
    calc b.toNat * 2 ^ n < 2 ^ 8 * 2 ^ n := by have := b.isLt; gcongr
      _ = 2 ^ (8 + n) := by rw [Nat.pow_add]
      _ ≤ 2 ^ 32 := Nat.pow_le_pow_right (by omega) (by omega)
  rw [wordOfLanes, BitVec.toNat_or, BitVec.toNat_or, BitVec.toNat_or, shifted _ 8 (by omega), shifted _ 16 (by omega),
    shifted _ 24 (by omega), BitVec.toNat_setWidth, Nat.mod_eq_of_lt (by omega : b0.toNat < 2 ^ 32), e1, e2, e3]

@[simp] theorem lane_wordOfLanes_zero : lane (wordOfLanes b0 b1 b2 b3) 0 = b0 := by
  apply BitVec.eq_of_toNat_eq
  rw [toNat_lane, toNat_wordOfLanes]
  omega

@[simp] theorem lane_wordOfLanes_one : lane (wordOfLanes b0 b1 b2 b3) 1 = b1 := by
  apply BitVec.eq_of_toNat_eq
  rw [toNat_lane, toNat_wordOfLanes]
  omega

@[simp] theorem lane_wordOfLanes_two : lane (wordOfLanes b0 b1 b2 b3) 2 = b2 := by
  apply BitVec.eq_of_toNat_eq
  rw [toNat_lane, toNat_wordOfLanes]
  omega

@[simp] theorem lane_wordOfLanes_three : lane (wordOfLanes b0 b1 b2 b3) 3 = b3 := by
  apply BitVec.eq_of_toNat_eq
  rw [toNat_lane, toNat_wordOfLanes]
  omega

end lanes

end Machine

end Sys2Proof
end

