-- ==== Sys2Proof/Laws/Exec.lean ====
section
/-! SUPPORT. What a command can do, said once: it answers a next state, appends to RQ words that do not depend on RQ, and
leaves the host's moves alone. -/

namespace Sys2Proof.Machine

/-- A command appends its responses to RQ and does the rest whatever the two streams hold. -/
theorem exec_withStreams (i : Instr) (s : State) :
    ∃ (t : State) (ws : List Word), ∀ q m, exec i (withStreams q m s) = .next (withStreams (q ++ ws) m t) := by
  cases i with
  | nop => exact ⟨s, [], fun q m => by rw [List.append_nil]; rfl⟩
  | start => exact ⟨clearSession s, [], fun q m => by rw [List.append_nil]; rfl⟩
  | update len =>
    by_cases h : len = 0
    · exact ⟨s, [], fun q m => by rw [List.append_nil]; exact if_pos h⟩
    · exact ⟨beginPayload len false s, [], fun q m => by rw [List.append_nil]; exact if_neg h⟩
  | rddig => exact ⟨s, s.h.toList, fun q m => rfl⟩
  | rdhex => exact ⟨s, hexWords s.h, fun q m => rfl⟩
  | rdstat => exact ⟨s, [statusWord s], fun q m => rfl⟩
  | reserved67 op rsv len =>
    exact ⟨raiseCmdError .illegalOpcode s, [], fun q m => by
      rw [List.append_nil, ← raiseCmdError_withStreams]; rfl⟩
  | reserved8F op rsv len =>
    exact ⟨raiseCmdError .illegalOpcode s, [], fun q m => by
      rw [List.append_nil, ← raiseCmdError_withStreams]; rfl⟩

/-- The same, at the streams the state holds. -/
theorem exec_streams {i : Instr} {s t : State} (he : exec i s = .next t) :
    t.inp = s.inp ∧ ∃ ws, t.rq = s.rq ++ ws := by
  obtain ⟨u, ws, h⟩ := exec_withStreams i s
  have h' := h s.rq s.inp
  rw [show withStreams s.rq s.inp s = s from rfl, he] at h'
  cases h'
  exact ⟨rfl, ws, rfl⟩

end Sys2Proof.Machine
end

