-- ==== Sys2Proof/Laws/Payload.lean ====
section
/-! SUPPORT. What an UPDATE's data word does, said once: discarded, or kept (40_session_commands.md R57, R60). -/

namespace Sys2Proof.Machine

theorem rem_ne_zero {r : BitVec 24} : r ≠ 0 ↔ r.toNat ≠ 0 := by
  rw [Ne, ← BitVec.toNat_inj]
  rfl

/-- A data word whose payload is discarded: its lanes are counted off. -/
theorem dataWord_discarded {s : State} (w : Word) (hd : s.disc = true) :
    dataWord w s = if s.rem.toNat ≤ 4 then { countLanes s with ph := .hdr, disc := false } else countLanes s := by
  unfold dataWord
  rw [takeBytes_discarded _ hd]
  simp only [rem_countLanes_eq_zero]
  split
  · unfold endPayload absorbLast
    rw [if_neg (by simp [hd])]
  · rfl

/-- A data word whose payload is kept: its lanes are staged, and the chunk that they fill, or with which the payload ends,
is absorbed. -/
theorem dataWord_kept {s : State} (w : Word) (hd : s.disc = false) (hn : s.sbn.toNat < 32) (hrem : s.rem ≠ 0)
    (hroom : s.sbn.toNat + payloadLanes s.rem ≤ 32) :
    let n := s.sbn.toNat + payloadLanes s.rem
    let b := staging s.sb s.sbn.toNat (payloadBytes w s.rem)
    let t := dataWord w s
    t.sb = b ∧ t.disc = false ∧ t.rem = (countLanes s).rem ∧ t.ph = (if s.rem.toNat ≤ 4 then .hdr else s.ph) ∧
    (n = 32 ∨ s.rem.toNat ≤ 4 → t.session = (absorbBlock b n s).session ∧ t.sbn = 0) ∧
    (n < 32 → 4 < s.rem.toNat → t.session = s.session ∧ t.sbn.toNat = n) := by
  intro n b t
  have taken := takeBytes_kept (payloadBytes w s.rem) hd hn (by simpa using hroom)
  simp only [payloadBytes_length] at taken
  have hk : 0 < payloadLanes s.rem := by
    have := rem_ne_zero.1 hrem
    simp [payloadLanes]
    omega
  by_cases full : n = 32
  · rw [if_pos full] at taken
    by_cases last : s.rem.toNat ≤ 4
    · have : t = { countLanes (withStaging b 0 (absorbBlock b 32 s)) with ph := .hdr, disc := false } := by
        show dataWord w s = _
        rw [dataWord_eq, taken, if_pos last]
        unfold endPayload absorbLast
        rw [if_neg (by simp)]
      rw [this, full]
      exact ⟨rfl, rfl, by simp, by rw [if_pos last], fun _ => ⟨by simp [State.session], by simp⟩, fun h => by omega⟩
    · have : t = countLanes (withStaging b 0 (absorbBlock b 32 s)) := by
        show dataWord w s = _
        rw [dataWord_eq, taken, if_neg last]
      rw [this, full]
      refine ⟨rfl, ?_, by simp, by rw [if_neg last]; simp, fun _ => ⟨by simp [State.session], by simp⟩,
        fun h => by omega⟩
      simp only [countLanes_disc, withStaging_disc, absorbBlock_disc, hd]
  · rw [if_neg full] at taken
    have filled : (s.sbn + BitVec.ofNat 6 (payloadLanes s.rem)).toNat = n := by
      simp
      omega
    by_cases last : s.rem.toNat ≤ 4
    · have : t = { withStaging b 0 (absorbBlock b n (countLanes s)) with ph := .hdr, disc := false } := by
        show dataWord w s = _
        rw [dataWord_eq, taken, if_pos last]
        unfold endPayload absorbLast
        have some : s.sbn + BitVec.ofNat 6 (payloadLanes s.rem) ≠ 0 := by
          intro e
          rw [e] at filled
          simp at filled
          omega
        rw [if_pos (by simp only [countLanes_disc, withStaging_disc, countLanes_sbn, withStaging_sbn]; exact ⟨hd, some⟩),
          absorbStaged_eq_withStaging]
        simp only [countLanes_sbn, withStaging_sbn, countLanes_sb, withStaging_sb, filled]
        apply State.ext <;> simp [b]
      rw [this]
      exact ⟨rfl, rfl, by simp, by rw [if_pos last], fun _ => ⟨by simp [State.session], by simp⟩, fun _ h => by omega⟩
    · have : t = countLanes (withStaging b (s.sbn + BitVec.ofNat 6 (payloadLanes s.rem)) s) := by
        show dataWord w s = _
        rw [dataWord_eq, taken, if_neg last]
      rw [this]
      refine ⟨rfl, ?_, by simp, by rw [if_neg last]; simp, fun h => by omega,
        fun _ _ => ⟨by simp [State.session], by simpa using filled⟩⟩
      simp only [countLanes_disc, withStaging_disc, hd]

end Sys2Proof.Machine
end

