-- ==== Sys2Proof/Laws/PerInstr.lean ====
section
/-! SUPPORT. Per instruction: the OP field of a well-formed command's header is its opcode in 30_encoding.md R45. -/

namespace Sys2Proof.Laws.OpcodeField

/-- Whether `op` is an opcode of the command's row in R45. -/
def isOpcode (op : Nat) : Instr → Prop
  | .nop => op = 0
  | .start => op = 1
  | .update _ => op = 2
  | .rddig => op = 3
  | .rdhex => op = 4
  | .rdstat => op = 5
  | .reserved67 _ _ _ => op = 6 ∨ op = 7
  | .reserved8F _ _ _ => 8 ≤ op ∧ op < 16

/-- A well-formed command's header carries an opcode of its own row in its low four bits. -/
def Statement (i : Instr) : Prop := i.wellFormed = true → isOpcode ((encode i).toNat % 16) i

theorem nop : Statement .nop := fun _ => rfl

theorem start : Statement .start := fun _ => rfl

theorem update (len : BitVec 24) : Statement (.update len) := fun _ => by
  show (headerWord len 0 2).toNat % 16 = 2
  rw [← toNat_opOf, opOf_headerWord]
  rfl

theorem rddig : Statement .rddig := fun _ => rfl

theorem rdhex : Statement .rdhex := fun _ => rfl

theorem rdstat : Statement .rdstat := fun _ => rfl

theorem reserved67 (op rsv : BitVec 4) (len : BitVec 24) : Statement (.reserved67 op rsv len) := fun wf => by
  show (headerWord len rsv op).toNat % 16 = 6 ∨ (headerWord len rsv op).toNat % 16 = 7
  rw [← toNat_opOf, opOf_headerWord]
  rcases (by simpa [Instr.wellFormed] using wf : op = 6 ∨ op = 7) with rfl | rfl
  · exact .inl rfl
  · exact .inr rfl

theorem reserved8F (op rsv : BitVec 4) (len : BitVec 24) : Statement (.reserved8F op rsv len) := fun wf => by
  show 8 ≤ (headerWord len rsv op).toNat % 16 ∧ (headerWord len rsv op).toNat % 16 < 16
  rw [← toNat_opOf, opOf_headerWord]
  exact ⟨by simpa [Instr.wellFormed] using wf, op.isLt⟩

end Sys2Proof.Laws.OpcodeField
end

