-- ==== Sys2Proof/Laws/Pieces.lean ====
section
/-! SUPPORT. The pieces of a byte sequence, one at a time, and what a block reads of its buffer. -/

namespace Sys2Proof.Machine

theorem pieces_nil {n : Nat} (hn : 0 < n) : pieces n [] = [] := by
  simp [pieces, Nat.div_eq_of_lt (by omega : n - 1 < n)]

/-- The first piece of a sequence longer than one piece, or exactly as long. -/
theorem pieces_append {n : Nat} (hn : 0 < n) (a b : List Byte) (ha : a.length = n) :
    pieces n (a ++ b) = a :: pieces n b := by
  have count : ((a ++ b).length + n - 1) / n = (b.length + n - 1) / n + 1 := by
    rw [List.length_append, ha, show n + b.length + n - 1 = b.length + n - 1 + n by omega, Nat.add_div_right _ hn]
  unfold pieces
  rw [count, List.range_succ_eq_map, List.map_cons, List.map_map]
  congr 1
  · simp [← ha]
  · apply List.map_congr_left
    intro i _
    have : n * (i + 1) = a.length + n * i := by rw [ha, Nat.mul_succ, Nat.add_comm]
    simp [this, List.drop_append, List.drop_eq_nil_of_le (Nat.le_add_right a.length (n * i))]

/-- A sequence of at most one piece. -/
theorem pieces_short {n : Nat} (a : List Byte) (h0 : a ≠ []) (ha : a.length ≤ n) : pieces n a = [a] := by
  have pos : 0 < a.length := List.length_pos_iff.2 h0
  have count : (a.length + n - 1) / n = 1 := by
    apply Nat.div_eq_of_lt_le <;> omega
  unfold pieces
  rw [count]
  simp [List.take_of_length_le ha]

/-- Induction over the pieces: none, one short piece, or a whole piece before the rest. -/
theorem pieces_induction {n : Nat} (hn : 0 < n) {motive : List Byte → Prop} (nil : motive [])
    (short : ∀ a : List Byte, a ≠ [] → a.length < n → motive a)
    (whole : ∀ a b : List Byte, a.length = n → motive b → motive (a ++ b)) (bytes : List Byte) : motive bytes := by
  obtain ⟨fuel, hf⟩ : ∃ fuel, bytes.length ≤ fuel := ⟨_, le_rfl⟩
  induction fuel generalizing bytes with
  | zero => rw [List.eq_nil_of_length_eq_zero (by omega : bytes.length = 0)]; exact nil
  | succ fuel ih =>
    by_cases e : bytes = []
    · rw [e]; exact nil
    by_cases lt : bytes.length < n
    · exact short bytes e lt
    · rw [← List.take_append_drop n bytes]
      exact whole _ _ (by rw [List.length_take]; omega) (ih _ (by rw [List.length_drop]; omega))

/-- What stands in the buffer behind the chunk is not read (41_block_absorb.md R68). -/
theorem formatBlock_congr {buf buf' : Chunk} {len : Nat} (h : ∀ i : Fin 32, i.val < len → buf[i] = buf'[i])
    (bc nc : Counter) : formatBlock buf len bc nc = formatBlock buf' len bc nc := by
  have byte : ∀ i, paddedByte buf len i = paddedByte buf' len i := by
    intro i
    unfold paddedByte
    split
    · next c => exact h i c
    · rfl
  simp only [formatBlock, payloadWord, byte]

theorem absorbBlock_congr {buf buf' : Chunk} {len : Nat} (h : ∀ i : Fin 32, i.val < len → buf[i] = buf'[i]) (s : State) :
    absorbBlock buf len s = absorbBlock buf' len s := by
  simp only [absorbBlock, formatBlock_congr h]

theorem bufferOf_getElem (bytes : List Byte) (i : Fin 32) : (bufferOf bytes)[i] = bytes.getD i.val 0 := by
  simp [bufferOf]

theorem absorbPayload_nil (s : State) : absorbPayload [] s = s := by
  simp [absorbPayload, chunksOf, pieces_nil]

theorem absorbPayload_append {a : List Byte} (ha : a.length = 32) (b : List Byte) (s : State) :
    absorbPayload (a ++ b) s = absorbPayload b (absorbBlock (bufferOf a) 32 s) := by
  simp only [absorbPayload, chunksOf, pieces_append (by decide : 0 < 32) a b ha, List.foldl_cons, ha]

theorem absorbPayload_short {a : List Byte} (h0 : a ≠ []) (ha : a.length ≤ 32) (s : State) :
    absorbPayload a s = absorbBlock (bufferOf a) a.length s := by
  simp only [absorbPayload, chunksOf, pieces_short a h0 ha, List.foldl_cons, List.foldl_nil]

end Sys2Proof.Machine
end

