-- ==== Sys2Proof/Laws/Step.lean ====
section
/-! SUPPORT. What a step can do, said once: which move took place and what it left, and what each move does when it can
take place. -/

namespace Sys2Proof.Machine

section moves
variable {s : State} {w : Word} {rest : List HostMove}

theorem step_none (hin : s.inp = []) : step s = .fault .stuckNoHostMove := by
  simp [step, advance, hin]

theorem step_reset (hin : s.inp = .reset :: rest) : step s = .next (resetEngine (takeMove rest s)) := by
  simp [step, advance, hin]

theorem step_accept (hin : s.inp = .accept :: rest) (hrq : s.rq ≠ []) :
    step s = .next (dropResponse (takeMove rest s)) := by
  cases e : s.rq with
  | nil => exact absurd e hrq
  | cons r rs => simp [step, advance, hin, e]

theorem step_accept_empty (hin : s.inp = .accept :: rest) (hrq : s.rq = []) : step s = .fault .stuckNoResponse := by
  simp [step, advance, hin, hrq]

theorem step_word (hin : s.inp = .word w :: rest) (hroom : overDepth s.rq Config.rqDepth = false) :
    step s = engineStep w (takeMove rest s) := by
  simp [step, advance, hin, hroom]

theorem step_word_full (hin : s.inp = .word w :: rest) (hfull : overDepth s.rq Config.rqDepth = true) :
    step s = .fault .stuckResponsesNotAccepted := by
  simp [step, advance, hin, hfull]

end moves

/-- A step that answers a next state made one of the host's moves. -/
theorem step_next_cases {s t : State} (hst : step s = .next t) :
    (∃ rest, s.inp = .reset :: rest ∧ t = resetEngine (takeMove rest s)) ∨
    (∃ rest, s.inp = .accept :: rest ∧ s.rq ≠ [] ∧ t = dropResponse (takeMove rest s)) ∨
    (∃ w rest, s.inp = .word w :: rest ∧ overDepth s.rq Config.rqDepth = false ∧
      engineStep w (takeMove rest s) = .next t) := by
  unfold step advance at hst
  split at hst
  · cases hst
  · next rest e => exact .inl ⟨rest, e, by cases hst; rfl⟩
  · next rest e =>
    split at hst
    · cases hst
    · next r rs q => exact .inr (.inl ⟨rest, e, by simp [q], by cases hst; rfl⟩)
  · next w rest e =>
    split at hst
    · cases hst
    · next room => exact .inr (.inr ⟨w, rest, e, by simpa using room, hst⟩)

/-- What the engine's own step can do with a word. -/
theorem engineStep_next_cases {w : Word} {s t : State} (hst : engineStep w s = .next t) :
    (s.ph = .hdr ∧ ∃ i, decode w = .ok i ∧ exec i s = .next t) ∨
    (s.ph = .hdr ∧ ∃ c, decode w = .error c ∧ t = badHeader w c s) ∨
    (s.ph = .data ∧ ¬ (s.disc = false ∧ 32 ≤ s.sbn.toNat) ∧ t = dataWord w s) := by
  unfold engineStep at hst
  split at hst
  · next e =>
    unfold headerStep at hst
    split at hst
    · next i d => exact .inl ⟨e, i, d, hst⟩
    · next c d => exact .inr (.inl ⟨e, c, d, by cases hst; rfl⟩)
  · next e =>
    unfold payloadStep at hst
    split at hst
    · cases hst
    · next g => exact .inr (.inr ⟨e, g, by cases hst; rfl⟩)

theorem engineStep_command {w : Word} {i : Instr} {s : State} (hph : s.ph = .hdr) (hd : decode w = .ok i) :
    engineStep w s = exec i s := by
  simp [engineStep, hph, headerStep, hd]

theorem engineStep_malformed {w : Word} {c : CmdError} {s : State} (hph : s.ph = .hdr) (hd : decode w = .error c) :
    engineStep w s = .next (badHeader w c s) := by
  simp [engineStep, hph, headerStep, hd]

theorem engineStep_data {w : Word} {s : State} (hph : s.ph = .data) (hsb : ¬ (s.disc = false ∧ 32 ≤ s.sbn.toNat)) :
    engineStep w s = .next (dataWord w s) := by
  simp [engineStep, hph, payloadStep, hsb]

/-- With a header placed before it, the next step runs that instruction, from every state: what else the placement changes
is the parser's position and a response queue too long for the engine to take a word. -/
theorem step_withFetchWord {s : State} {nbits w : Nat} {i : Instr} (hd : decodeTableWord nbits w = some i) :
    ∃ u : State, step (s.withFetchWord nbits w) = exec i u ∧ u.inp = s.inp ∧ u.ph = .hdr ∧
      (s.ph = .hdr → overDepth s.rq Config.rqDepth = false → u = s) := by
  have hd' : decode (tableWord nbits w) = .ok i := by
    unfold decodeTableWord at hd
    split at hd
    · next e => rw [e]; cases hd; rfl
    · cases hd
  refine ⟨takeMove s.inp (s.withFetchWord nbits w), ?_, rfl, ?_, ?_⟩
  · have hin : (s.withFetchWord nbits w).inp = .word (tableWord nbits w) :: s.inp := by
      simp only [State.withFetchWord, presentHeader]; split <;> split <;> rfl
    have hph : (s.withFetchWord nbits w).ph = .hdr := by
      simp only [State.withFetchWord, presentHeader]; split <;> simp_all
    have hroom : overDepth (s.withFetchWord nbits w).rq Config.rqDepth = false := by
      simp only [State.withFetchWord, presentHeader]
      split <;> split <;> simp_all [overDepth]
    rw [step_word hin hroom, engineStep_command (by simpa using hph) hd']
  · simp only [takeMove_ph, State.withFetchWord, presentHeader]; split <;> simp_all
  · intro hph hroom
    cases s
    simp_all [State.withFetchWord, presentHeader, takeMove]

end Sys2Proof.Machine
end

