-- ==== Sys2Proof/Laws/Run.lean ====
section
/-! SUPPORT. Runs of several steps: one step first, or a run and then another. Proofs about `run` cite these and never unfold
it. And the session's four elements. -/

namespace Sys2Proof.Machine

@[simp] theorem run_zero (s : State) : run 0 s = .next s := rfl

theorem run_succ (k : Nat) {s t : State} (h : step s = .next t) : run (k + 1) s = run k t := by
  simp only [run, Host.Core.run, core, h]

theorem run_one {s t : State} (h : step s = .next t) : run 1 s = .next t := by
  rw [run_succ 0 h, run_zero]

theorem run_succ_stops (k : Nat) {s : State} (h : ∀ t, step s ≠ .next t) : run (k + 1) s = step s := by
  cases e : step s with
  | next t => exact absurd e (h t)
  | fault r => simp only [run, Host.Core.run, core, e]
  | refused r => simp only [run, Host.Core.run, core, e]

theorem run_add {j : Nat} (k : Nat) {s t : State} (h : run j s = .next t) : run (j + k) s = run k t := by
  induction j generalizing s with
  | zero => cases h; rw [Nat.zero_add]
  | succ j ih =>
    cases e : step s with
    | next u =>
      rw [run_succ j e] at h
      rw [Nat.add_right_comm, run_succ (j + k) e]
      exact ih h
    | fault r => rw [run_succ_stops j (by simp [e]), e] at h; cases h
    | refused r => rw [run_succ_stops j (by simp [e]), e] at h; cases h

/-! The session's four elements. Stated for a variable, so that no proof compares an absorbed payload field by field. -/

@[simp] theorem session_h (s : State) : s.session.h = s.h := rfl

@[simp] theorem session_bc (s : State) : s.session.bc = s.bc := rfl

@[simp] theorem session_nc (s : State) : s.session.nc = s.nc := rfl

@[simp] theorem session_init (s : State) : s.session.init = s.init := rfl

theorem session_eq_iff {s t : State} : s.session = t.session ↔ s.h = t.h ∧ s.bc = t.bc ∧ s.nc = t.nc ∧ s.init = t.init := by
  simp only [State.session, Session.mk.injEq]

end Sys2Proof.Machine
end

