-- ==== Sys2Proof/Tests/Slice0.lean ====
section
/-! SUPPORT. Tests against words and values written out from spec/, and for every statement with hypotheses a theorem that
shows a state and operands which meet all of them. -/

namespace Sys2Proof.Tests

open Sys2Proof.Machine

/-- The reset state with these moves of the host to come. -/
def host (moves : List HostMove) : State := { State.reset with inp := moves }

/-- Inside an UPDATE with `n` bytes to come, nothing staged. -/
def inside (n : BitVec 24) (discard : Bool) (moves : List HostMove) : State :=
  { State.reset with ph := .data, rem := n, disc := discard, inp := moves }

/-- The next state, if there is one. -/
def next? (o : Host.Outcome State Fault Refusal) : Option State :=
  match o with
  | .next t => some t
  | .fault _ => none
  | .refused _ => none

/-- The HashState of V-ABS-1, "abc" from reset. -/
def abcHash : Block :=
  #v[0x56021983, 0xe3fa873e, 0x49c31cf5, 0x9cccdeb1, 0x1e8ecb31, 0x3b274937, 0xa9817a8c, 0x4ad36e1e,
    0xdbf6c6ff, 0x427b9511, 0x0f5ba117, 0xbb747073, 0xebaa67f1, 0x44cbae11, 0xfb5e9b2c, 0xd9f8cec5]

/-! ### Well-formed instructions: each check refuses a term -/

theorem test_reserved67_holds_only_opcodes_6_and_7 :
    (Instr.reserved67 5 0 0).wellFormed = false ∧ (Instr.reserved67 6 15 1).wellFormed = true ∧
    (Instr.reserved67 7 0 0).wellFormed = true ∧ (Instr.reserved67 8 0 0).wellFormed = false := by decide

theorem test_reserved8F_holds_only_opcodes_8_to_15 :
    (Instr.reserved8F 7 0 0).wellFormed = false ∧ (Instr.reserved8F 8 0 0).wellFormed = true ∧
    (Instr.reserved8F 15 15 1).wellFormed = true ∧ (Instr.reserved8F 0 0 0).wellFormed = false := by decide

/-! ### Decoding: words assembled bit by bit from R42 (LEN in bits 31:8, RSV in 7:4, OP in 3:0) -/

theorem test_decode_nop : decode 0b000000000000000000000000_0000_0000 = .ok .nop := by rfl

theorem test_decode_start : decode 0b000000000000000000000000_0000_0001 = .ok .start := by rfl

theorem test_decode_update : decode 0b100000000000000000000011_0000_0010 = .ok (.update 0x800003) := by rfl

theorem test_decode_reads :
    decode 0b000000000000000000000000_0000_0011 = .ok .rddig ∧ decode 0b000000000000000000000000_0000_0100 = .ok .rdhex ∧
    decode 0b000000000000000000000000_0000_0101 = .ok .rdstat := ⟨rfl, rfl, rfl⟩

theorem test_decode_reserved :
    decode 0b000000000000000000000001_0101_0111 = .ok (.reserved67 7 5 1) ∧
    decode 0b000000000000000000000000_0000_0110 = .ok (.reserved67 6 0 0) ∧
    decode 0b000000000000000000000000_0000_1000 = .ok (.reserved8F 8 0 0) ∧
    decode 0b111111111111111111111111_1111_1111 = .ok (.reserved8F 15 15 0xffffff) := ⟨rfl, rfl, rfl, rfl⟩

/-- 95_test_vectors.md section 6. -/
theorem test_decode_malformed :
    decode 0x00000010 = .error .reservedBits ∧ decode 0x00000012 = .error .reservedBits ∧
    decode 0x000000f5 = .error .reservedBits ∧ decode 0x00000103 = .error .lenNotZero ∧
    decode 0x00000101 = .error .lenNotZero ∧ decode 0x00000100 = .error .lenNotZero ∧
    decode 0xffffff05 = .error .lenNotZero := ⟨rfl, rfl, rfl, rfl, rfl, rfl, rfl⟩

/-- V-SES-1: the number of data words of UPDATE headers. -/
theorem test_ndata :
    [0x00000002, 0x00000102, 0x00000402, 0x00000502, 0x00001f02, 0x00002102, 0xffffe002, 0xffffff02].map ndata
      = [0, 1, 1, 2, 8, 9, 4194296, 4194304] := by rfl

/-- The words of every row of spec/opcode_table.json. -/
theorem test_decode_table_words :
    decodeTableWord 32 0 = some .nop ∧ decodeTableWord 32 1 = some .start ∧ decodeTableWord 32 2 = some (.update 0) ∧
    decodeTableWord 32 3 = some .rddig ∧ decodeTableWord 32 4 = some .rdhex ∧ decodeTableWord 32 5 = some .rdstat ∧
    decodeTableWord 32 6 = some (.reserved67 6 0 0) ∧ decodeTableWord 32 8 = some (.reserved8F 8 0 0) :=
  ⟨rfl, rfl, rfl, rfl, rfl, rfl, rfl, rfl⟩

/-! ### One step of every command -/

theorem test_nop_runs : next? (step (State.reset.withFetchWord 32 0)) = some State.reset := by decide +kernel

/-- V-SES-7: START after "abc", and with an error recorded. -/
theorem test_start_clears_only_the_session :
    next? (exec .start { State.reset with h := abcHash, bc := 3, nc := 1, init := true, err := true, errcode := 1 })
      = some { State.reset with err := true, errcode := 1 } := by decide +kernel

theorem test_start_runs : next? (step (State.reset.withFetchWord 32 1)) = some State.reset := by decide +kernel

theorem test_update_header_waits :
    next? (step (State.reset.withFetchWord 32 0x302)) = some { State.reset with ph := .data, rem := 3 } := by
  decide +kernel

/-- P1: UPDATE 3 and its data word. -/
theorem test_update_abc :
    next? (run 2 (host (sends [0x00000302, 0x00636261] []))) =
      some { State.reset with h := abcHash, bc := 3, nc := 1, init := true,
                              sb := (bufferOf [0x61, 0x62, 0x63]) } := by decide +kernel

/-- P11: the word of a command is payload inside an UPDATE. -/
theorem test_command_word_is_payload :
    ((next? (run 3 (host (sends [0x00000502, 0x64636261, 0x00000005] [])))).map fun t => (t.h[0], t.bc, t.ph, t.rq))
      = some (0xe8e3961e, 5, .hdr, []) := by decide +kernel

theorem test_rddig_runs :
    ((next? (exec .rddig { State.reset with h := abcHash })).map fun t => t.rq) = some abcHash.toList := by
  decide +kernel

/-- V-RD-1: the digest text of "abc". -/
theorem test_rdhex_runs :
    ((next? (exec .rdhex { State.reset with h := abcHash })).map fun t => t.rq) = some
      [0x32303635, 0x33383931, 0x61663365, 0x65333738, 0x33633934, 0x35666331, 0x63636339, 0x31626564,
       0x65386531, 0x31336263, 0x37326233, 0x37333934, 0x31383961, 0x63386137, 0x33646134, 0x65316536,
       0x36666264, 0x66663663, 0x62373234, 0x31313539, 0x62356630, 0x37313161, 0x34376262, 0x33373037,
       0x61616265, 0x31663736, 0x62633434, 0x31316561, 0x65356266, 0x63326239, 0x38663964, 0x35636563] := by
  decide +kernel

/-- V-RD-4. -/
theorem test_rdstat_runs :
    ((next? (exec .rdstat { State.reset with init := true, err := true, errcode := 3 })).map fun t => t.rq)
      = some [0x00000033] := by decide +kernel

/-- P5: the first code is kept. -/
theorem test_reserved67_runs :
    next? (run 2 (host (sends [0x00000007, 0x00000500] []))) = some { State.reset with err := true, errcode := 1 } := by
  decide +kernel

theorem test_reserved8F_runs :
    next? (step (State.reset.withFetchWord 32 0xffffffff)) = some { State.reset with err := true, errcode := 1 } := by
  decide +kernel

/-- P6: a malformed UPDATE's data word is discarded. -/
theorem test_malformed_update_is_discarded :
    next? (run 2 (host (sends [0x00000312, 0x00636261] []))) = some { State.reset with err := true, errcode := 2 } := by
  decide +kernel

/-- P9: a malformed read answers nothing. -/
theorem test_malformed_read_answers_nothing :
    next? (step (host (sends [0x00000103] []))) = some { State.reset with err := true, errcode := 3 } := by
  decide +kernel

/-- R107: reset inside a packet. -/
theorem test_reset_cuts_a_packet :
    next? (step { inside 9 false [.reset] with bc := 7, init := true, rq := [5] }) = some State.reset := by
  decide +kernel

theorem test_accept_takes_the_oldest :
    next? (step { host [.accept] with rq := [1, 2] }) = some { State.reset with rq := [2] } := by decide +kernel

/-! ### The permutation core and the block formatter -/

/-- V-ROT-1. -/
theorem test_rotl32 :
    [16, 12, 8, 7, 1, 31].map (rotl32 0x80000001) =
      [0x00018000, 0x00001800, 0x00000180, 0x000000c0, 0x00000003, 0xc0000000] ∧
    [16, 12, 8, 7, 1, 31].map (rotl32 0x12345678) =
      [0x56781234, 0x45678123, 0x34567812, 0x1a2b3c09, 0x2468acf0, 0x091a2b3c] := by decide

/-- V-QR-1 and two rows of V-QR-2. -/
theorem test_quarter_round :
    quarterRound 0x11111111 0x01020304 0x9b8d6f43 0x01234567 = (0xea2a92f4, 0xcb1cf8ce, 0x4581472e, 0x5881c4bb) ∧
    quarterRound 0xffffffff 0xffffffff 0xffffffff 0xffffffff = (0xf0000ffd, 0x88790878, 0x0110fdef, 0x010ffdf0) ∧
    quarterRound 0 0 0 0x80000000 = (0x08000000, 0x40400404, 0x00808008, 0x00800008) := by decide

/-- V-PERM-1. -/
theorem test_permutation_of_sixteen_different_words :
    chachaPerm #v[0x61707865, 0x3320646e, 0x79622d32, 0x6b206574, 0x03020100, 0x07060504, 0x0b0a0908, 0x0f0e0d0c,
      0x13121110, 0x17161514, 0x1b1a1918, 0x1f1e1d1c, 0x00000001, 0x09000000, 0x4a000000, 0x00000000] =
    #v[0xe4e7f110, 0x15593bd1, 0x1fdd0f50, 0xc47120a3, 0xc7f4d1c7, 0x0368c033, 0x9aaa2204, 0x4e6cd4c3,
      0x466482d2, 0x09aa9f07, 0x05d7c214, 0xa2028bd9, 0xd19c12b5, 0xb94e16de, 0xe883d0cb, 0x4e3c50a2] := by
  decide +kernel

/-- V-PERM-6: the block of "abc" after its first column round and after its first double round. -/
theorem test_rounds_of_abc :
    let x := formatBlock (bufferOf [0x61, 0x62, 0x63]) 3 3 0
    columnRound x =
      #v[0xc20f0870, 0x16526ab4, 0xa0f85005, 0xb1d26bcb, 0x8a14a0e2, 0xfae0ea21, 0x66e11e68, 0xe3a851a6,
        0xa52f04eb, 0xa0c7c792, 0xf75be0ef, 0x0b7556f4, 0xca69a318, 0x3c599472, 0xca29678d, 0xa600ebd4] ∧
    doubleRound x =
      #v[0xbe0ff135, 0x2e35ee55, 0x9364c535, 0xfd7f34cc, 0x1ac9f4d5, 0x499410ad, 0xe8bc35eb, 0x2154804b,
        0x98868a8a, 0x6badbbf6, 0x5b8cd685, 0x66d31d52, 0x31590f04, 0xbd7dcca6, 0x5fc50296, 0x4aebdaa7] := by
  decide +kernel

/-- V-ABS-4: the second block of forty bytes, its chunk of eight bytes. -/
theorem test_format_second_block :
    formatBlock (bufferOf [0x20, 0x21, 0x22, 0x23, 0x24, 0x25, 0x26, 0x27]) 8 40 1 =
      #v[0x61707865, 0x3320646e, 0x79622d32, 0x6b206574, 0x23222120, 0x27262524, 0, 0, 0, 0, 0, 0, 0x28, 0, 1, 0] := by
  decide

/-- V-ABS-4: two chunks are folded. -/
theorem test_absorb_forty_bytes :
    let t := absorbPayload ((List.range 40).map (BitVec.ofNat 8)) State.reset
    (t.h[0], t.h[15], t.bc, t.nc) = (0x43908c2f, 0xc85ef3e6, 40, 2) := by decide +kernel

/-- V-ABS-6, first row: the counters wrap. -/
theorem test_counters_wrap :
    let t := absorbBlock (bufferOf [0x61, 0x62, 0x63]) 3 { State.reset with bc := -2, nc := 0xffffffff }
    (t.bc, t.nc, t.h[0], t.h[15]) = (1, 0x100000000, 0xef7575ea, 0x8985665d) := by decide +kernel

/-- V-RD-3. -/
theorem test_hex_char : [0, 9, 10, 15].map hexChar = [0x30, 0x39, 0x61, 0x66] := by decide

/-- R51: a call with no bytes sends nothing, one with three bytes one packet. -/
theorem test_update_call : updateCall [] = [] ∧ updateCall [0x61, 0x62, 0x63] = [0x00000302, 0x00636261] := by
  decide +kernel

/-- R50: the assembler refuses a line with a data word too few. -/
theorem test_assembler_refuses : assembleUpdate 5 [0x64636261] = none ∧ assembleUpdate 16777216 [] = none := by
  decide +kernel

/-! ### The hypotheses of the statements are met -/

theorem test_witness_DecodeOfEncodeIsTheCommand :
    ∀ i ∈ [Instr.nop, .start, .update 0, .update 0xffffff, .rddig, .rdhex, .rdstat, .reserved67 6 15 0xffffff,
      .reserved67 7 0 0, .reserved8F 8 0 0, .reserved8F 15 15 0xffffff], i.wellFormed = true := by decide

theorem test_witness_EncodeOfDecodeIsTheHeader : decode 0xffffff02 = .ok (.update 0xffffff) := rfl

/-- A header for every clause, at both ends of its range. -/
theorem test_witness_HeaderDecodeChecksOpcodeThenReservedThenLength :
    (∀ h ∈ [(0x00000006 : Word), 0xfffffff7], h.toNat % 16 = 6 ∨ h.toNat % 16 = 7) ∧
    (∀ h ∈ [(0x00000008 : Word), 0xffffffff], 8 ≤ h.toNat % 16) ∧
    (∀ h ∈ [(0x00000010 : Word), 0xfffffff5], h.toNat % 16 < 6 ∧ h.toNat / 16 % 16 ≠ 0) ∧
    (∀ h ∈ [(0x00000100 : Word), 0xffffff05],
      h.toNat % 16 < 6 ∧ h.toNat / 16 % 16 = 0 ∧ h.toNat % 16 ≠ 2 ∧ h.toNat / 256 ≠ 0) ∧
    (∀ h ∈ [(0x00000002 : Word), 0xffffff02], h.toNat % 16 = 2 ∧ h.toNat / 16 % 16 = 0) ∧
    (∀ h ∈ [(0 : Word), 1, 3, 4, 5], h.toNat / 16 % 16 = 0 ∧ h.toNat / 256 = 0) := by
  refine ⟨?_, ?_, ?_, ?_, ?_, ?_⟩ <;> simp

theorem test_witness_EveryPacketIsItsHeaderAndItsDataWords :
    let s := host (sends [0x00000302, 0x00636261] [])
    s.ph = .hdr ∧ s.TakesWords ∧ s.inp = sends ((0x00000302 : Word) :: [0x00636261]) [] ∧
    [(0x00636261 : Word)].length =
      if (0x00000302 : Word).toNat % 16 = 2 then ((0x00000302 : Word).toNat / 256 + 3) / 4 else 0 :=
  ⟨rfl, rfl, rfl, rfl⟩

theorem test_witness_AssembledUpdateLineIsOnePacket :
    assembleUpdate 3 [0x00636261] = some [0x00000302, 0x00636261] ∧ assembleUpdate 0 [] = some [2] := by decide +kernel

theorem test_witness_StepRunsTheDecodedCommand :
    let s := host [.word 5]
    s.inp = .word 5 :: [] ∧ s.ph = .hdr ∧ s.TakesWords ∧ decode 5 = .ok .rdstat ∧ s.inp = .word (encode .rdstat) :: [] ∧
    Instr.rdstat.wellFormed = true := ⟨rfl, rfl, rfl, rfl, rfl, rfl⟩

/-- One header for each code, and malformed UPDATEs with and without data words. -/
theorem test_witness_MalformedHeaderRecordsItsCodeAndNothingElse :
    (∀ h : Word, (host [.word h]).inp = .word h :: [] ∧ (host [.word h]).ph = .hdr ∧ (host [.word h]).TakesWords) ∧
    Malformed 0x00000006 1 ∧ Malformed 0xffffffff 1 ∧ Malformed 0x00000012 2 ∧ Malformed 0x00000312 2 ∧
    Malformed 0x000000f5 2 ∧ Malformed 0x00000100 3 ∧ Malformed 0xffffff05 3 :=
  ⟨fun _ => ⟨rfl, rfl, rfl⟩, by unfold Malformed; decide, by unfold Malformed; decide, by unfold Malformed; decide,
    by unfold Malformed; decide, by unfold Malformed; decide, by unfold Malformed; decide, by unfold Malformed; decide⟩

theorem nothing_staged : (0 : BitVec 6).toNat < 32 ∧ (0 : BitVec 6).toNat % 4 = 0 := by decide

theorem inv_host (moves : List HostMove) : (host moves).Inv :=
  ⟨fun _ => ⟨rfl, rfl, rfl⟩, fun _ => rfl, fun h => Bool.noConfusion h, fun _ => ⟨rfl, rfl, rfl⟩,
    fun h => Phase.noConfusion h, fun h => Bool.noConfusion h, nothing_staged⟩

theorem inv_inside (n : BitVec 24) (discard : Bool) (moves : List HostMove) (hn : n ≠ 0) : (inside n discard moves).Inv :=
  ⟨fun _ => ⟨rfl, rfl, rfl⟩, fun _ => rfl, fun h => Bool.noConfusion h, fun h => Phase.noConfusion h,
    fun _ => hn, fun _ => rfl, nothing_staged⟩

theorem test_witness_MalformedUpdatePacketIsDiscarded :
    let s := host (sends [0x00000312, 0x00636261] [])
    s.Inv ∧ s.ph = .hdr ∧ s.TakesWords ∧ (0x00000312 : Word).toNat % 16 = 2 ∧ (0x00000312 : Word).toNat / 16 % 16 ≠ 0 ∧
    [(0x00636261 : Word)].length = ((0x00000312 : Word).toNat / 256 + 3) / 4 ∧
    s.inp = sends ((0x00000312 : Word) :: [0x00636261]) [] :=
  ⟨inv_host _, rfl, rfl, rfl, by decide, rfl, rfl⟩

/-- The last data word, with four bytes to come, and one before it, with five. -/
theorem test_witness_DiscardedDataWordOnlyCountsDown :
    ∀ n ∈ [(4 : BitVec 24), 5], (inside n true [.word 7]).inp = .word 7 :: [] ∧ (inside n true [.word 7]).ph = .data ∧
      (inside n true [.word 7]).disc = true ∧ (inside n true [.word 7]).TakesWords :=
  fun _ _ => ⟨rfl, rfl, rfl, rfl⟩

/-- A chunk that is filled (28 staged, 9 to come), a payload that ends (0 staged, 3 to come), both at once (28 staged, 4 to
come), neither (0 staged, 5 to come). -/
theorem test_witness_DataWordStagesItsLanesAndAbsorbsCompletedChunks :
    ∀ p ∈ [((28 : BitVec 6), (9 : BitVec 24)), (0, 3), (28, 4), (0, 5)],
      let s := { inside p.2 false [.word 7] with sbn := p.1 }
      s.inp = .word 7 :: [] ∧ s.ph = .data ∧ s.disc = false ∧ s.TakesWords ∧ s.rem ≠ 0 ∧
      s.sbn.toNat + min 4 s.rem.toNat ≤ 32 := by
  intro p hp
  simp only [List.mem_cons, List.not_mem_nil, or_false] at hp
  rcases hp with rfl | rfl | rfl | rfl <;> exact ⟨rfl, rfl, rfl, rfl, by decide, by decide⟩

/-- P1b: three bytes to come, garbage in the fourth lane. -/
theorem test_witness_LanesBeyondThePayloadAreIgnored :
    ∀ j, j < min 4 (inside 3 false []).rem.toNat → lane 0x00636261 j = lane 0xff636261 j := by decide

theorem test_witness_StepTakesExactlyTheNextMove : step (host [.reset]) = .next State.reset := rfl

theorem test_witness_StepStopsOnlyWhenNothingCanTransfer : State.reset.Inv := inv_host []

/-- Each of the three stops happens. -/
theorem test_every_stop_happens :
    step (host []) = .fault .stuckNoHostMove ∧ step (host [.accept]) = .fault .stuckNoResponse ∧
    step { host [.word 0] with rq := List.replicate (Config.rqDepth + 1) 0 } = .fault .stuckResponsesNotAccepted := by
  refine ⟨rfl, rfl, ?_⟩
  have full : ∀ n, overDepth (List.replicate (n + 1) 0) n = true := by
    intro n
    induction n with
    | zero => rfl
    | succ n ih => exact ih
  simp only [step, advance, host]
  rw [if_pos (full Config.rqDepth)]

theorem test_witness_AcceptingEarlierOrLaterIsTheSame :
    engineStep 5 State.reset = .next { State.reset with rq := [0] } := rfl

theorem test_witness_CompleteRunsDependOnlyOnTheCommandWords :
    let moves : List HostMove := [.word 5, .accept, .word 1]
    .reset ∉ moves ∧ run moves.length { State.reset with inp := moves } = .next State.reset ∧ State.reset.Complete :=
  ⟨by decide, rfl, rfl, rfl, rfl⟩

theorem test_witness_AcceptTakesTheOldestResponse :
    let s := { host [.accept] with rq := [1, 2] }
    s.inp = .accept :: [] ∧ s.rq = 1 :: [2] := ⟨rfl, rfl⟩

/-- A command, a data word, an accepted response and a reset. -/
theorem test_witness_StepKeepsTheInvariant :
    ((host [.word 1]).Inv ∧ step (host [.word 1]) = .next State.reset) ∧
    ((inside 5 true [.word 1]).Inv ∧ step (inside 5 true [.word 1]) = .next (inside 1 true [])) ∧
    ({ host [.accept] with rq := [1] }.Inv ∧ step { host [.accept] with rq := [1] } = .next State.reset) ∧
    ((inside 5 false [.reset]).Inv ∧ step (inside 5 false [.reset]) = .next State.reset) :=
  ⟨⟨inv_host _, rfl⟩, ⟨inv_inside _ _ _ (by decide), rfl⟩,
    ⟨⟨fun _ => ⟨rfl, rfl, rfl⟩, fun _ => rfl, fun h => Bool.noConfusion h, fun _ => ⟨rfl, rfl, rfl⟩,
      fun h => Phase.noConfusion h, fun h => Bool.noConfusion h, by decide⟩, rfl⟩,
    ⟨inv_inside _ _ _ (by decide), rfl⟩⟩

theorem test_witness_HashIsZeroUntilInitialized :
    run 1 { State.reset with inp := [.word 1] } = .next State.reset ∧ State.reset.init = false := ⟨rfl, rfl⟩

theorem test_witness_ResetGivesEveryElementItsResetValue : (inside 5 false [.reset]).inp = .reset :: [] := rfl

/-- A START and a reset in a state with an error recorded. -/
theorem test_witness_ErrorRecordStaysUntilReset :
    let s := fun m : HostMove => { host [m] with err := true, errcode := 2 }
    step (s (.word 1)) = .next { State.reset with err := true, errcode := 2 } ∧ step (s .reset) = .next State.reset ∧
    ∀ m, (s m).err = true := ⟨rfl, rfl, fun _ => rfl⟩

theorem test_witness_OnlyMalformedHeadersRaiseErrors :
    step (host [.word 7]) = .next { State.reset with err := true, errcode := 1 } ∧ (host [.word 7]).err = false :=
  ⟨rfl, rfl⟩

/-- The session changes by a reset, by START and by the last word of a payload. -/
theorem test_witness_SessionChangesOnlyByStartResetAndPayload :
    (∀ m ∈ [HostMove.reset, .word 1],
      let s := { host [m] with init := true }
      step s = .next State.reset ∧ State.reset.session ≠ s.session) ∧
    ((next? (step (inside 3 false [.word 0x00636261]))).map fun t =>
      decide (t.session ≠ (inside 3 false [.word 0x00636261]).session)) = some true := by
  refine ⟨?_, by decide +kernel⟩
  intro m hm
  simp only [List.mem_cons, List.not_mem_nil, or_false] at hm
  rcases hm with rfl | rfl <;> exact ⟨rfl, by decide⟩

/-- A read command's word inside a packet, and a word that is no read command at a header position. -/
theorem test_witness_NoResponseIsProducedUnasked :
    ((inside 5 true [.word 4]).inp = .word 4 :: [] ∧ step (inside 5 true [.word 4]) = .next (inside 1 true []) ∧
      (inside 5 true [.word 4]).ph = .data) ∧
    ((host [.word 1]).inp = .word 1 :: [] ∧ step (host [.word 1]) = .next State.reset ∧
      (1 : Word) ≠ 3 ∧ (1 : Word) ≠ 4 ∧ (1 : Word) ≠ 5) :=
  ⟨⟨rfl, rfl, rfl⟩, rfl, rfl, by decide, by decide, by decide⟩

theorem test_witness_HighCounterHalvesAreNeverObserved :
    (0x100000000 : Counter).toNat % 2 ^ 32 = State.reset.bc.toNat % 2 ^ 32 ∧
    (0x700000000 : Counter).toNat % 2 ^ 32 = State.reset.nc.toNat % 2 ^ 32 := by decide

theorem test_witness_UpdateHeaderAwaitsItsPayload :
    (0x00000002 : Word).toNat % 256 = 2 ∧ (0xffffff02 : Word).toNat % 256 = 2 := by decide

theorem test_witness_ReadsArePureAndRepeat :
    ∀ i ∈ [Instr.rddig, .rdhex, .rdstat], i = .rddig ∨ i = .rdhex ∨ i = .rdstat := by decide

theorem test_witness_DigestTextDeterminesTheHash :
    unpackText (hexWords abcHash) = unpackText (hexWords abcHash) := rfl

/-- The shortest and the longest chunk. -/
theorem test_witness_AbsorbingAChunkUpdatesTheSession :
    ∀ len ∈ [1, 32], 1 ≤ len ∧ len ≤ 32 := by decide

theorem test_witness_HashIsTheXorOfTheOutputs :
    State.reset.init = false ∧ [(bufferOf [1], 1), (bufferOf [2], 1)] ≠ [] := by
  refine ⟨rfl, by simp⟩

theorem test_witness_AssigningAndFoldingTheFirstOutputAgree :
    State.reset.init = false → ∀ i : Fin 16, State.reset.h[i] = 0 := by decide

theorem test_witness_BlocksOfASessionHaveDifferentInputs :
    State.reset.nc.toNat + [(bufferOf [1], 1)].length < 2 ^ 32 ∧ [(bufferOf [1], 1)] ≠ [] := by
  refine ⟨by decide, by simp⟩

/-- V-ABS-2 and V-ABS-3: one zero byte, and 32. -/
theorem test_witness_PaddingIsTheSameButTheByteCountIsNot :
    1 ≤ 31 ∧ 1 + 31 ≤ 32 ∧ (∀ i : Fin 32, i.val < 1 → (bufferOf [])[i] = (bufferOf [0])[i]) ∧
    (∀ i : Fin 32, 1 ≤ i.val → i.val < 1 + 31 → (bufferOf [])[i] = 0) := by decide

/-- P1b: an UPDATE of three bytes with garbage in the unused lane. -/
theorem test_witness_UpdatePacketAbsorbsItsPayload :
    let payload : List Byte := [0x61, 0x62, 0x63]
    let s := host (sends [0x00000302, 0xff636261] [])
    s.ph = .hdr ∧ s.TakesWords ∧ payload.length < 2 ^ 24 ∧ [(0xff636261 : Word)].length = (payload.length + 3) / 4 ∧
    payloadOf payload.length [0xff636261] = payload ∧
    s.inp = sends (encode (.update (BitVec.ofNat 24 payload.length)) :: [0xff636261]) [] :=
  ⟨rfl, rfl, by decide, rfl, by decide, rfl⟩

theorem test_witness_SplitAtMultiplesOf32IsOneUpdate :
    ([] : List Byte).length % 32 = 0 ∧ (List.replicate 32 (0 : Byte)).length % 32 = 0 := by decide

theorem test_witness_StartThenUpdateIsIndependentOfThePast :
    let s := { host [] with h := abcHash, bc := 3, nc := 1, init := true }
    s.ph = .hdr ∧ s.TakesWords ∧ [(0x61 : Byte)].length < 2 ^ 24 := ⟨rfl, rfl, by decide⟩

theorem test_witness_StartThenDigestAnswersTheDigestOfThePayload :
    let s := { host [] with h := abcHash, bc := 3, nc := 1, init := true }
    s.ph = .hdr ∧ s.TakesWords := ⟨rfl, rfl⟩

/-- The bounds of n and of i. -/
theorem test_witness_RotationMovesEveryBit :
    ∀ n ∈ [1, 31], ∀ i ∈ [0, 31], 1 ≤ n ∧ n ≤ 31 ∧ i < 32 := by decide

/-- V-QR-1's steps. -/
theorem test_witness_QuarterRoundIsItsTwelveOperations :
    (0x12131415 : Word) = 0x11111111 + 0x01020304 ∧ (0x51721330 : Word) = ((0x01234567 ^^^ 0x12131415 : Word)).rotateLeft 16 ∧
    (0xecff8273 : Word) = 0x9b8d6f43 + 0x51721330 ∧ (0xd8177edf : Word) = ((0x01020304 ^^^ 0xecff8273 : Word)).rotateLeft 12 ∧
    (0xea2a92f4 : Word) = 0x12131415 + 0xd8177edf ∧ (0x5881c4bb : Word) = ((0x51721330 ^^^ 0xea2a92f4 : Word)).rotateLeft 8 ∧
    (0x4581472e : Word) = 0xecff8273 + 0x5881c4bb ∧ (0xcb1cf8ce : Word) = ((0xd8177edf ^^^ 0x4581472e : Word)).rotateLeft 7 := by
  decide

theorem test_witness_QuarterRoundTouchesOnlyItsFourWords :
    (⟨0, 4, 8, 12⟩ : Quad) ∈ columnQuads ++ diagonalQuads ∧ (⟨3, 4, 9, 14⟩ : Quad) ∈ columnQuads ++ diagonalQuads ∧
    ∀ i : Fin 16, i = 1 → i ≠ 0 ∧ i ≠ 4 ∧ i ≠ 8 ∧ i ≠ 12 := by decide

theorem test_witness_OrderInsideARoundDoesNotMatter :
    columnQuads.reverse.Perm columnQuads ∧ diagonalQuads.reverse.Perm diagonalQuads := by decide

end Sys2Proof.Tests
end

section
/-! PROOFS. Complete runs (00_scope.md R10, 20_memory.md R36, 70_reset_and_hazards.md R113). A run is compared with the
engine fed the same command words while the host accepts nothing: what the host has observed in the run is then still at
the front of RQ, and the rest of the state is the run's. -/

namespace Sys2Proof.Machine

/-! ### The engine's step and the two streams -/

/-- A word's effect and its responses do not depend on what the two streams hold (R36). -/
theorem engineStep_withStreams {w : Word} {s t : State} (hst : engineStep w s = .next t) :
    t.inp = s.inp ∧ ∃ ws, t.rq = s.rq ++ ws ∧
      ∀ q m, engineStep w (withStreams q m s) = .next (withStreams (q ++ ws) m t) := by
  rcases engineStep_next_cases hst with ⟨hph, i, hdec, hexec⟩ | ⟨hph, c, hdec, rfl⟩ | ⟨hph, hroom, rfl⟩
  · obtain ⟨u, ws, hu⟩ := exec_withStreams i s
    obtain rfl : withStreams (s.rq ++ ws) s.inp u = t := by
      have here : exec i s = _ := hu s.rq s.inp
      rw [hexec] at here
      cases here
      rfl
    exact ⟨rfl, ws, rfl, fun q m => (engineStep_command (s := withStreams q m s) hph hdec).trans (hu q m)⟩
  · refine ⟨badHeader_inp .., [], by simp, fun q m => ?_⟩
    rw [engineStep_malformed (s := withStreams q m s) hph hdec, badHeader_withStreams, List.append_nil]
  · refine ⟨dataWord_inp .., [], by simp, fun q m => ?_⟩
    rw [engineStep_data (s := withStreams q m s) hph hroom, dataWord_withStreams, List.append_nil]

/-- The engine fed these command words, whatever waits in RQ. -/
def engineRun : List Word → State → Host.Outcome State Fault Refusal
  | [], s => .next s
  | w :: ws, s =>
    match engineStep w s with
    | .next t => engineRun ws t
    | .fault r => .fault r
    | .refused r => .refused r

theorem engineRun_cons {w : Word} {s t : State} (ws : List Word) (hst : engineStep w s = .next t) :
    engineRun (w :: ws) s = engineRun ws t := by
  simp only [engineRun, hst]

/-! ### A state whose accepted responses still wait -/

/-- `s` with the responses `seen`, which the host has accepted, back at the front of RQ, and no host moves to come. -/
def State.unaccepted (seen : List Word) (s : State) : State := withStreams (seen ++ s.rq) [] s

theorem step_word_unaccepted {s t : State} {w : Word} {rest : List HostMove} (seen : List Word)
    (hin : s.inp = .word w :: rest) (hst : step s = .next t) :
    t.inp = rest ∧ engineStep w (s.unaccepted seen) = .next (t.unaccepted seen) := by
  rcases step_next_cases hst with ⟨m, e, _⟩ | ⟨m, e, _⟩ | ⟨v, m, e, _, heng⟩
  · cases hin.symm.trans e
  · cases hin.symm.trans e
  · cases hin.symm.trans e
    obtain ⟨hinp, ws, hrq, heff⟩ := engineStep_withStreams heng
    have hfed : engineStep w (s.unaccepted seen) = _ := heff (seen ++ s.rq) []
    refine ⟨hinp, ?_⟩
    rw [hfed, State.unaccepted, hrq, takeMove_rq, List.append_assoc]

theorem step_accept_unaccepted {s t : State} {rest : List HostMove} (seen : List Word)
    (hin : s.inp = .accept :: rest) (hst : step s = .next t) :
    t.inp = rest ∧ t.unaccepted (seen ++ s.emitted.toList) = s.unaccepted seen := by
  rcases step_next_cases hst with ⟨m, e, _⟩ | ⟨m, e, hrq, rfl⟩ | ⟨v, m, e, _⟩
  · cases hin.symm.trans e
  · cases hin.symm.trans e
    obtain ⟨r, rs, hq⟩ := List.exists_cons_of_ne_nil hrq
    refine ⟨rfl, ?_⟩
    have words : seen ++ s.emitted.toList ++ s.rq.tail = seen ++ s.rq := by simp [State.emitted, hin, hq]
    rw [State.unaccepted, dropResponse_rq, takeMove_rq, words]
    rfl
  · cases hin.symm.trans e

theorem emitted_word {s : State} {w : Word} {rest : List HostMove} (hin : s.inp = .word w :: rest) :
    s.emitted = none := by
  simp [State.emitted, hin]

/-- In a complete state RQ holds exactly the accepted responses that were put back. -/
theorem State.Complete.eq_of_unaccepted_eq {t t' : State} {seen seen' : List Word} (hc : t.Complete) (hc' : t'.Complete)
    (heq : t.unaccepted seen = t'.unaccepted seen') : t = t' ∧ seen = seen' := by
  obtain ⟨_, hinp, hrq⟩ := hc
  obtain ⟨_, hinp', hrq'⟩ := hc'
  constructor
  · calc t = withStreams [] [] t := by rw [← hrq, ← hinp]; rfl
      _ = withStreams [] [] (t.unaccepted seen) := rfl
      _ = withStreams [] [] (t'.unaccepted seen') := by rw [heq]
      _ = withStreams [] [] t' := rfl
      _ = t' := by rw [← hrq', ← hinp']; rfl
  · simpa [State.unaccepted, hrq, hrq'] using congrArg State.rq heq

/-! ### Runs -/

/-- A run that takes place makes its first step. -/
theorem run_succ_next {k : Nat} {s t : State} (hrun : run (k + 1) s = .next t) :
    ∃ u, step s = .next u ∧ run k u = .next t := by
  cases e : step s with
  | next u => exact ⟨u, rfl, by rwa [run_succ k e] at hrun⟩
  | fault r => rw [run_succ_stops k (by simp [e]), e] at hrun; cases hrun
  | refused r => rw [run_succ_stops k (by simp [e]), e] at hrun; cases hrun

theorem observed_succ (k : Nat) {s t : State} (hst : step s = .next t) :
    observed (k + 1) s = s.emitted.toList ++ observed k t := by
  simp only [observed, hst]

/-- A run without a reset, seen from an engine that is fed its command words while nothing is accepted: what the host
observes is what then stays at the front of RQ. -/
theorem engineRun_of_run {moves : List HostMove} {s t : State} (seen : List Word) (hin : s.inp = moves)
    (hreset : .reset ∉ moves) (hrun : run moves.length s = .next t) :
    engineRun (moves.filterMap HostMove.sent) (s.unaccepted seen) =
      .next (t.unaccepted (seen ++ observed moves.length s)) := by
  induction moves generalizing s seen with
  | nil =>
    cases hrun
    simp [engineRun, observed]
  | cons move rest ih =>
    obtain ⟨u, hst, hrest⟩ := run_succ_next hrun
    have hreset' : .reset ∉ rest := fun h => hreset (List.mem_cons_of_mem move h)
    rw [List.length_cons, observed_succ _ hst, ← List.append_assoc]
    cases move with
    | reset => exact absurd List.mem_cons_self hreset
    | word w =>
      obtain ⟨hinp, hfed⟩ := step_word_unaccepted seen hin hst
      rw [List.filterMap_cons_some (f := HostMove.sent) (b := w) rfl, engineRun_cons _ hfed, emitted_word hin, Option.toList_none,
        List.append_nil]
      exact ih seen hinp hreset' hrest
    | accept =>
      obtain ⟨hinp, hsame⟩ := step_accept_unaccepted seen hin hst
      rw [List.filterMap_cons_none (f := HostMove.sent) rfl, ← hsame]
      exact ih _ hinp hreset' hrest

/-- Settles O18: both runs are the one run of the engine on their common command words. -/
theorem completeRunsDependOnlyOnTheCommandWords : Obligations.CompleteRunsDependOnlyOnTheCommandWords := by
  intro s t t' moves moves' hreset hreset' hsent hrun hrun' hc hc'
  have hfed := engineRun_of_run (s := { s with inp := moves }) [] rfl hreset hrun
  have hfed' := engineRun_of_run (s := { s with inp := moves' }) [] rfl hreset' hrun'
  rw [hsent] at hfed
  injection hfed.symm.trans hfed' with heq
  exact hc.eq_of_unaccepted_eq hc' heq

end Sys2Proof.Machine
end

section
/-! PROOFS. What every step keeps: the invariant (10_state.md R15, R17, 40_session_commands.md R57, R60, R61) and, but for
reset, START and absorbed payload, the session (10_state.md R11 to R14). One lemma per operation says what it does to
either; a step is taken apart into its operations by `step_next_cases`, `engineStep_next_cases` and `exec_next_cases`. -/

namespace Sys2Proof.Machine

/-! ### What a command can do -/

/-- What a command can do to the state. -/
theorem exec_next_cases {i : Instr} {s t : State} (he : exec i s = .next t) :
    t = s ∨ (i = .start ∧ t = clearSession s) ∨ (∃ len, i = .update len ∧ len ≠ 0 ∧ t = beginPayload len false s) ∨
    (∃ ws, t = rspWrite ws s) ∨ t = raiseCmdError .illegalOpcode s := by
  cases i with
  | nop => cases he; exact .inl rfl
  | start => cases he; exact .inr (.inl ⟨rfl, rfl⟩)
  | update len =>
    simp only [exec, execUpdate] at he
    split at he
    · cases he; exact .inl rfl
    · next hlen => cases he; exact .inr (.inr (.inl ⟨len, rfl, hlen, rfl⟩))
  | rddig | rdhex | rdstat => cases he; exact .inr (.inr (.inr (.inl ⟨_, rfl⟩)))
  | reserved67 | reserved8F => cases he; exact .inr (.inr (.inr (.inr rfl)))

theorem opcode_of_commandOf_eq_start {op rsv : BitVec 4} {len : BitVec 24} (h : commandOf op rsv len = .start) :
    op.toNat = 1 := by
  unfold commandOf at h
  split at h
  case h_2 hop => exact hop
  all_goals cases h

/-- START has one header word (30_encoding.md R45, R49). -/
theorem header_of_decode_eq_start {w : Word} (hd : decode w = .ok .start) : w = 1 := by
  rw [decode_eq_checks] at hd
  split_ifs at hd with hop hrsv hlen
  all_goals
    injection hd with hcmd
    have := opcode_of_commandOf_eq_start hcmd
    rw [toNat_opOf] at this
  · omega
  · apply BitVec.eq_of_toNat_eq
    show w.toNat = 1
    omega

/-! ### The invariant, operation by operation -/

/-- Settles O21: the reset values meet every clause. -/
theorem resetMeetsTheInvariant : Obligations.ResetMeetsTheInvariant where
  fresh _ := ⟨rfl, rfl, rfl⟩
  noError _ := rfl
  someError h := Bool.noConfusion h
  atHeader _ := ⟨rfl, rfl, rfl⟩
  inPayload h := Phase.noConfusion h
  discarding _ := rfl
  staged := by decide

/-- The invariant does not read the two streams. -/
theorem withStreams_inv {s : State} (hs : s.Inv) (q : List Word) (m : List HostMove) : (withStreams q m s).Inv :=
  ⟨hs.fresh, hs.noError, hs.someError, hs.atHeader, hs.inPayload, hs.discarding, hs.staged⟩

theorem resetEngine_inv (s : State) : (resetEngine s).Inv := withStreams_inv resetMeetsTheInvariant [] s.inp

theorem clearSession_inv {s : State} (hs : s.Inv) : (clearSession s).Inv :=
  { hs with fresh := fun _ => ⟨rfl, rfl, rfl⟩ }

theorem beginPayload_inv {s : State} (hs : s.Inv) {len : BitVec 24} (hlen : len ≠ 0) (discard : Bool) :
    (beginPayload len discard s).Inv where
  fresh := hs.fresh
  noError := hs.noError
  someError := hs.someError
  atHeader h := Phase.noConfusion h
  inPayload _ := hlen
  discarding _ := rfl
  staged := by rw [beginPayload_sbn]; decide

/-- The codes of R95. -/
theorem errorCode_cases (c : CmdError) : errorCode c = 1 ∨ errorCode c = 2 ∨ errorCode c = 3 := by
  cases c <;> decide

theorem raiseCmdError_inv {s : State} (hs : s.Inv) (c : CmdError) : (raiseCmdError c s).Inv := by
  cases herr : s.err with
  | true => rwa [raiseCmdError, if_pos herr]
  | false =>
    rw [raiseCmdError, if_neg (by simp [herr])]
    exact { hs with noError := fun h => Bool.noConfusion h, someError := fun _ => errorCode_cases c }

theorem badHeader_inv {s : State} (hs : s.Inv) (w : Word) (c : CmdError) : (badHeader w c s).Inv := by
  unfold badHeader
  split
  · next h => exact beginPayload_inv (raiseCmdError_inv hs c) h.2 true
  · exact raiseCmdError_inv hs c

theorem exec_inv {i : Instr} {s t : State} (hs : s.Inv) (he : exec i s = .next t) : t.Inv := by
  rcases exec_next_cases he with rfl | ⟨-, rfl⟩ | ⟨len, -, hlen, rfl⟩ | ⟨ws, rfl⟩ | rfl
  · exact hs
  · exact clearSession_inv hs
  · exact beginPayload_inv hs hlen false
  · exact withStreams_inv hs _ _
  · exact raiseCmdError_inv hs _

/-! ### The invariant and a data word -/

/-- A discarded data word leaves nothing staged, and no discarding once the payload is complete. -/
theorem dataWord_discarded_inv {s : State} (hs : s.Inv) (w : Word) (hph : s.ph = .data) (hd : s.disc = true) :
    (dataWord w s).Inv := by
  have hsbn : s.sbn = 0 := hs.discarding hd
  rw [dataWord_discarded w hd]
  split
  · next last =>
    exact {
      hs with
      atHeader := fun _ => ⟨(rem_countLanes_eq_zero s).2 last, rfl, hsbn⟩
      inPayload := fun h => Phase.noConfusion h
      discarding := fun h => Bool.noConfusion h }
  · next more =>
    exact {
      hs with
      atHeader := fun h => Phase.noConfusion (hph.symm.trans h)
      inPayload := fun _ => mt (rem_countLanes_eq_zero s).1 more }

/-- The lanes of the next data word have a place in SB. -/
theorem State.Inv.room {s : State} (hs : s.Inv) : s.sbn.toNat + payloadLanes s.rem ≤ 32 := by
  obtain ⟨hlt, hmod⟩ := hs.staged
  have hlanes : payloadLanes s.rem = min 4 s.rem.toNat := rfl
  omega

/-- A kept data word completes a chunk or the payload, which is absorbed and leaves nothing staged, or it stages four more
bytes and leaves the session alone. -/
theorem dataWord_kept_outcome {s : State} (hs : s.Inv) (w : Word) (hph : s.ph = .data) (hd : s.disc = false) :
    ((dataWord w s).init = true ∧ (dataWord w s).sbn = 0) ∨
    ((dataWord w s).session = s.session ∧ (dataWord w s).sbn.toNat = s.sbn.toNat + 4 ∧ s.sbn.toNat + 4 < 32 ∧
      4 < s.rem.toNat) := by
  obtain ⟨hlt, hmod⟩ := hs.staged
  have hlanes : payloadLanes s.rem = min 4 s.rem.toNat := rfl
  obtain ⟨-, -, -, -, absorbed, waiting⟩ := dataWord_kept w hd hlt (hs.inPayload hph) hs.room
  by_cases full : s.sbn.toNat + payloadLanes s.rem = 32 ∨ s.rem.toNat ≤ 4
  · obtain ⟨hsession, hsbn⟩ := absorbed full
    exact .inl ⟨by simpa using congrArg Session.init hsession, hsbn⟩
  · obtain ⟨hsession, hsbn⟩ := waiting (by omega) (by omega)
    exact .inr ⟨hsession, by omega, by omega, by omega⟩

theorem dataWord_kept_inv {s : State} (hs : s.Inv) (w : Word) (hph : s.ph = .data) (hd : s.disc = false) :
    (dataWord w s).Inv := by
  obtain ⟨-, hdisc, hrem, hphase, -⟩ := dataWord_kept w hd hs.staged.1 (hs.inPayload hph) hs.room
  have hlast := rem_countLanes_eq_zero s
  rw [← hrem] at hlast
  have outcome := dataWord_kept_outcome hs w hph hd
  refine {
    fresh := ?fresh
    noError := by simpa using hs.noError
    someError := by simpa using hs.someError
    atHeader := ?atHeader
    inPayload := ?inPayload
    discarding := fun h => Bool.noConfusion (hdisc.symm.trans h)
    staged := ?staged }
  case fresh =>
    intro hinit
    rcases outcome with ⟨habsorbed, -⟩ | ⟨hsame, -⟩
    · exact Bool.noConfusion (hinit.symm.trans habsorbed)
    · obtain ⟨hh, hbc, hnc, hi⟩ := session_eq_iff.1 hsame
      rw [hh, hbc, hnc]
      exact hs.fresh (hi.symm.trans hinit)
  case atHeader =>
    intro h
    have last : s.rem.toNat ≤ 4 := by
      by_contra more
      rw [hphase, if_neg more, hph] at h
      cases h
    rcases outcome with ⟨-, hsbn⟩ | ⟨-, -, -, more⟩
    · exact ⟨hlast.2 last, hdisc, hsbn⟩
    · omega
  case inPayload =>
    intro h hzero
    rw [hphase, if_pos (hlast.1 hzero)] at h
    cases h
  case staged =>
    rcases outcome with ⟨-, hsbn⟩ | ⟨-, hsbn, hroom, -⟩
    · rw [hsbn]; decide
    · have := hs.staged
      omega

/-! ### The invariant of every reachable state -/

theorem engineStep_inv {w : Word} {s t : State} (hs : s.Inv) (hst : engineStep w s = .next t) : t.Inv := by
  rcases engineStep_next_cases hst with ⟨-, i, -, he⟩ | ⟨-, c, -, rfl⟩ | ⟨hph, -, rfl⟩
  · exact exec_inv hs he
  · exact badHeader_inv hs w c
  · cases hd : s.disc with
    | true => exact dataWord_discarded_inv hs w hph hd
    | false => exact dataWord_kept_inv hs w hph hd

/-- Settles O20: whichever move the step makes, each operation it is built of keeps the invariant. -/
theorem stepKeepsTheInvariant : Obligations.StepKeepsTheInvariant := by
  intro s t hs hst
  rcases step_next_cases hst with ⟨rest, -, rfl⟩ | ⟨rest, -, -, rfl⟩ | ⟨w, rest, -, -, heng⟩
  · exact resetEngine_inv _
  · exact withStreams_inv hs _ _
  · exact engineStep_inv (withStreams_inv hs _ _) heng

/-- What every step keeps, every run keeps. -/
theorem run_keeps {P : State → Prop} (hstep : ∀ s t, P s → step s = .next t → P t) {k : Nat} {s t : State} (hs : P s)
    (hrun : run k s = .next t) : P t := by
  induction k generalizing s with
  | zero => cases hrun; exact hs
  | succ k ih =>
    obtain ⟨u, hst, hrest⟩ := run_succ_next hrun
    exact ih (hstep s u hs hst) hrest

theorem reachable_inv {moves : List HostMove} {k : Nat} {t : State}
    (hrun : run k { State.reset with inp := moves } = .next t) : t.Inv :=
  run_keeps stepKeepsTheInvariant (withStreams_inv resetMeetsTheInvariant [] moves) hrun

/-- Settles O22: the invariant holds of every reachable state, and its first clause is the statement. -/
theorem hashIsZeroUntilInitialized : Obligations.HashIsZeroUntilInitialized := by
  intro moves k t hrun hinit i
  obtain ⟨hh, -, -⟩ := (reachable_inv hrun).fresh hinit
  simp [hh]

/-- Settles O23: a reset always takes place, and it leaves the reset values. -/
theorem resetGivesEveryElementItsResetValue : Obligations.ResetGivesEveryElementItsResetValue := by
  intro s rest hin
  refine ⟨_, step_reset hin, ?_⟩
  simp [State.reset]

/-! ### The session -/

theorem exec_session {i : Instr} {s t : State} (hi : i ≠ .start) (he : exec i s = .next t) : t.session = s.session := by
  rcases exec_next_cases he with rfl | ⟨rfl, -⟩ | ⟨len, -, -, rfl⟩ | ⟨ws, rfl⟩ | rfl
  · rfl
  · exact absurd rfl hi
  · rfl
  · rfl
  · simp [session_eq_iff]

theorem dataWord_discarded_session {s : State} (w : Word) (hd : s.disc = true) : (dataWord w s).session = s.session := by
  rw [dataWord_discarded w hd]
  split <;> rfl

/-- A word that changes the session is START at a header position or a payload word that is absorbed. -/
theorem engineStep_session_changed {w : Word} {s t : State} (hst : engineStep w s = .next t)
    (hne : t.session ≠ s.session) : (s.ph = .hdr ∧ w = 1) ∨ (s.ph = .data ∧ s.disc = false) := by
  rcases engineStep_next_cases hst with ⟨hph, i, hdec, he⟩ | ⟨-, c, -, rfl⟩ | ⟨hph, -, rfl⟩
  · obtain rfl : i = .start := by
      by_contra hi
      exact hne (exec_session hi he)
    exact .inl ⟨hph, header_of_decode_eq_start hdec⟩
  · exact absurd (by simp [session_eq_iff]) hne
  · have hd : s.disc ≠ true := fun hd => hne (dataWord_discarded_session w hd)
    exact .inr ⟨hph, by simpa using hd⟩

/-- Settles O26: an accepted response leaves the session alone; for a word `engineStep_session_changed` says which it is. -/
theorem sessionChangesOnlyByStartResetAndPayload : Obligations.SessionChangesOnlyByStartResetAndPayload := by
  intro s t hst hne
  rcases step_next_cases hst with ⟨rest, hin, -⟩ | ⟨rest, -, -, rfl⟩ | ⟨w, rest, hin, -, heng⟩
  · exact .inl (by rw [hin]; rfl)
  · exact absurd rfl hne
  · have hmove : s.inp.head? = some (.word w) := by rw [hin]; rfl
    rcases engineStep_session_changed heng hne with ⟨hph, rfl⟩ | ⟨hph, hd⟩
    · exact .inr (.inl ⟨hph, hmove⟩)
    · exact .inr (.inr ⟨hph, hd, w, hmove⟩)

end Sys2Proof.Machine
end

section
/-! PROOFS. The two streams (20_memory.md R26, R27, R33 to R36, 70_reset_and_hazards.md R113): which part of a data word
is read, which move a step takes, and which words add responses. -/

namespace Sys2Proof

/-! ### A decoded header -/

/-- A header whose fields pass the checks of 30_encoding.md R49 is the header of the command it names. -/
theorem encode_commandOf {op rsv : BitVec 4} {len : BitVec 24}
    (hlegal : 6 ≤ op.toNat ∨ rsv = 0 ∧ (op = 2 ∨ len = 0)) : encode (commandOf op rsv len) = headerWord len rsv op := by
  have hvalue : BitVec.ofNat 4 op.toNat = op := by simp
  unfold commandOf
  split
  case h_3 hop =>
    rw [hop] at hvalue
    obtain ⟨rfl, -⟩ := hlegal.resolve_left (by omega)
    subst hvalue
    rfl
  case h_7 | h_8 | h_9 => rfl
  all_goals
    next hop =>
      rw [hop] at hvalue
      obtain ⟨rfl, hlen⟩ := hlegal.resolve_left (by omega)
      subst hvalue
      obtain rfl : len = 0 := hlen.resolve_left (by decide)
      rfl

/-- No two headers decode to the same command (30_encoding.md R49). -/
theorem encode_of_decode {h : Word} {i : Instr} (hd : decode h = .ok i) : encode i = h := by
  have named (hlegal : 6 ≤ (opOf h).toNat ∨ rsvOf h = 0 ∧ (opOf h = 2 ∨ lenOf h = 0)) :
      encode (commandOf (opOf h) (rsvOf h) (lenOf h)) = h := (encode_commandOf hlegal).trans (headerWord_fields h)
  unfold decode at hd
  split_ifs at hd with hop hrsv hlen
  · cases hd
    exact named (.inl hop)
  · cases hd
    exact named (.inr ⟨not_not.1 hrsv, by tauto⟩)

namespace Machine

/-! ### The payload lanes of a data word -/

theorem payloadBytes_congr {w w' : Word} {rem : BitVec 24} (hlanes : ∀ j, j < payloadLanes rem → lane w j = lane w' j) :
    payloadBytes w rem = payloadBytes w' rem := by
  apply List.ext_getElem
  · simp only [payloadBytes_length]
  · intro j hj hj'
    rw [payloadBytes_length] at hj
    have hbyte := (payloadBytes_getD w rem j hj).trans ((hlanes j hj).trans (payloadBytes_getD w' rem j hj).symm)
    rwa [List.getD_eq_getElem, List.getD_eq_getElem] at hbyte

/-- Settles O14: a data word is read only as its payload bytes. -/
theorem lanesBeyondThePayloadAreIgnored : Obligations.LanesBeyondThePayloadAreIgnored := by
  intro s w w' hlanes
  rw [dataWord_eq, dataWord_eq, payloadBytes_congr hlanes]

/-! ### The move a step takes -/

/-- The engine's own step does not see the host's later moves. -/
theorem engineStep_takeMove {w : Word} {s t : State} (later : List HostMove) (hst : engineStep w s = .next t) :
    engineStep w (takeMove later s) = .next (takeMove later t) := by
  obtain ⟨-, ws, hrq, heff⟩ := engineStep_withStreams hst
  rw [takeMove_eq_withStreams, heff, takeMove_eq_withStreams, hrq]

/-- Settles O15: each of the three moves is taken off the list, and its effect does not read what follows it. -/
theorem stepTakesExactlyTheNextMove : Obligations.StepTakesExactlyTheNextMove := by
  intro s t hst
  rcases step_next_cases hst with ⟨rest, hin, rfl⟩ | ⟨rest, hin, hrq, rfl⟩ | ⟨w, rest, hin, hroom, heng⟩
  · exact ⟨.reset, hin, fun later => step_reset rfl⟩
  · exact ⟨.accept, hin, fun later => step_accept (s := { s with inp := .accept :: later }) rfl hrq⟩
  · obtain ⟨hinp, -⟩ := engineStep_withStreams heng
    refine ⟨.word w, by rw [hinp]; exact hin, fun later => ?_⟩
    have heff := engineStep_takeMove later heng
    exact (step_word (s := { s with inp := .word w :: later }) rfl hroom).trans heff

/-! ### Responses -/

/-- Settles O17: the word's responses are appended to whatever RQ holds. -/
theorem acceptingEarlierOrLaterIsTheSame : Obligations.AcceptingEarlierOrLaterIsTheSame := by
  intro s t w r hst
  obtain ⟨hinp, ws, hrq, heff⟩ := engineStep_withStreams hst
  have hwaiting : engineStep w { s with rq := r :: s.rq } = _ := heff (r :: s.rq) s.inp
  rw [hwaiting, hrq, ← hinp]
  rfl

/-- The commands that answer: RDDIG, RDHEX and RDSTAT. -/
theorem exec_rq_of_not_read {i : Instr} {s t : State} (hi : i ≠ .rddig ∧ i ≠ .rdhex ∧ i ≠ .rdstat)
    (he : exec i s = .next t) : t.rq = s.rq := by
  obtain ⟨hdig, hhex, hstat⟩ := hi
  cases i with
  | nop | start => cases he; rfl
  | update len =>
    simp only [exec, execUpdate] at he
    split at he <;> cases he <;> rfl
  | rddig => exact absurd rfl hdig
  | rdhex => exact absurd rfl hhex
  | rdstat => exact absurd rfl hstat
  | reserved67 | reserved8F => cases he; exact raiseCmdError_rq ..

/-- Settles O27: of the commands only the reads answer, and each has one header; malformed headers and data words leave RQ
alone. -/
theorem noResponseIsProducedUnasked : Obligations.NoResponseIsProducedUnasked := by
  intro s t w rest hin hst hw
  rcases step_next_cases hst with ⟨m, e, -⟩ | ⟨m, e, -⟩ | ⟨v, m, e, -, heng⟩
  · cases hin.symm.trans e
  · cases hin.symm.trans e
  · cases hin.symm.trans e
    rcases engineStep_next_cases heng with ⟨hph, i, hdec, he⟩ | ⟨-, c, -, rfl⟩ | ⟨-, -, rfl⟩
    · obtain ⟨h3, h4, h5⟩ := hw.resolve_left fun hdata => Phase.noConfusion (hph.symm.trans hdata)
      have hword : w = encode i := (encode_of_decode hdec).symm
      refine (exec_rq_of_not_read ⟨?_, ?_, ?_⟩ he).trans (takeMove_rq ..)
      · rintro rfl; exact h3 hword
      · rintro rfl; exact h4 hword
      · rintro rfl; exact h5 hword
    · exact badHeader_rq ..
    · exact dataWord_rq ..

/-- Settles O19: the accepted word is the head of RQ, the rest stays. -/
theorem acceptTakesTheOldestResponse : Obligations.AcceptTakesTheOldestResponse := by
  intro s r rs rest hin hrq
  constructor
  · simp [State.emitted, hin, hrq]
  · rw [step_accept hin (by simp [hrq]), dropResponse_eq_withStreams, takeMove_rq, hrq]
    rfl

/-- Settles O36: the words read are a function of H or of the flags, which a read leaves as they are. -/
theorem readsArePureAndRepeat : Obligations.ReadsArePureAndRepeat := by
  rintro s i (rfl | rfl | rfl)
  · exact ⟨s.h.toList, rfl, rfl⟩
  · exact ⟨hexWords s.h, rfl, rfl⟩
  · exact ⟨[statusWord s], rfl, rfl⟩

end Machine

end Sys2Proof
end

section
/-! PROOFS. The header and its command (30_encoding.md R42, R45, R46, R49). Both directions of the decoder go through its
three checks on the fields: a header decodes exactly if they pass, and then to `commandOf` of its fields. -/

namespace Sys2Proof

/-! ### The fields that pass the checks of R49 -/

/-- The three checks of R49 on a header's fields: a reserved opcode is a command whatever else the header holds; else RSV
is 0, and LEN is 0 but for UPDATE. -/
def LegalFields (op rsv : BitVec 4) (len : BitVec 24) : Prop := 6 ≤ op.toNat ∨ rsv = 0 ∧ (op = 2 ∨ len = 0)

theorem decode_eq_ok_iff {h : Word} {i : Instr} :
    decode h = .ok i ↔ LegalFields (opOf h) (rsvOf h) (lenOf h) ∧ commandOf (opOf h) (rsvOf h) (lenOf h) = i := by
  unfold decode LegalFields
  split_ifs with hop hrsv hlen
  · simp [hop]
  · exact iff_of_false nofun (by tauto)
  · exact iff_of_false nofun (by tauto)
  · rw [Except.ok.injEq]
    exact (and_iff_right (by tauto)).symm

/-- A header assembled from fields that pass the checks decodes to the command of its opcode. -/
theorem decode_headerWord {op rsv : BitVec 4} {len : BitVec 24} (hlegal : LegalFields op rsv len) :
    decode (headerWord len rsv op) = .ok (commandOf op rsv len) :=
  decode_eq_ok_iff.2 (by simpa using hlegal)

theorem commandOf_reserved67 {op : BitVec 4} (hop : op.toNat = 6 ∨ op.toNat = 7) (rsv : BitVec 4) (len : BitVec 24) :
    commandOf op rsv len = .reserved67 op rsv len := by
  rcases hop with e | e <;> simp [commandOf, e]

theorem commandOf_reserved8F {op : BitVec 4} (hop : 8 ≤ op.toNat) (rsv : BitVec 4) (len : BitVec 24) :
    commandOf op rsv len = .reserved8F op rsv len := by
  unfold commandOf
  split
  case h_9 => rfl
  all_goals omega

theorem commandOf_legal {op : BitVec 4} (hop : op.toNat < 6) (rsv : BitVec 4) (len : BitVec 24) :
    commandOf op rsv len ∈ [.nop, .start, .update len, .rddig, .rdhex, .rdstat] := by
  rcases (by omega : op.toNat = 0 ∨ op.toNat = 1 ∨ op.toNat = 2 ∨ op.toNat = 3 ∨ op.toNat = 4 ∨ op.toNat = 5)
    with e | e | e | e | e | e <;> simp [commandOf, e]

/-- An opcode below 6 names a legal command, every other one a row of reserved opcodes (R45). -/
theorem commandOf_ne_reserved_iff {op rsv : BitVec 4} {len : BitVec 24} :
    (∀ o r l, commandOf op rsv len ≠ .reserved67 o r l ∧ commandOf op rsv len ≠ .reserved8F o r l) ↔ op.toNat < 6 := by
  constructor
  · intro hne
    by_contra hop
    by_cases low : op.toNat < 8
    · exact (hne op rsv len).1 (commandOf_reserved67 (by omega) rsv len)
    · exact (hne op rsv len).2 (commandOf_reserved8F (by omega) rsv len)
  · intro hop o r l
    have legal := commandOf_legal hop rsv len
    constructor <;> (intro e; simp [e] at legal)

theorem wellFormed_commandOf (op rsv : BitVec 4) (len : BitVec 24) : (commandOf op rsv len).wellFormed = true := by
  by_cases high : 8 ≤ op.toNat
  · rw [commandOf_reserved8F high]
    simpa [Instr.wellFormed] using high
  by_cases middle : op.toNat = 6 ∨ op.toNat = 7
  · rw [commandOf_reserved67 middle]
    simpa [Instr.wellFormed, ← BitVec.toNat_inj] using middle
  · have legal := commandOf_legal (by omega : op.toNat < 6) rsv len
    simp only [List.mem_cons, List.not_mem_nil, or_false] at legal
    rcases legal with e | e | e | e | e | e <;> rw [e] <;> rfl

/-! ### The statements about the decoder -/

/-- Settles O1: the fields of a well-formed command pass the checks, and its opcode names its constructor. -/
theorem decodeOfEncodeIsTheCommand : Obligations.DecodeOfEncodeIsTheCommand := by
  intro i wf
  cases i with
  | nop | start | rddig | rdhex | rdstat => exact decode_headerWord (.inr ⟨rfl, .inr rfl⟩)
  | update len => exact decode_headerWord (.inr ⟨rfl, .inl rfl⟩)
  | reserved67 op rsv len =>
    have hop : op.toNat = 6 ∨ op.toNat = 7 := by simpa [Instr.wellFormed, ← BitVec.toNat_inj] using wf
    exact (decode_headerWord (.inl (by omega))).trans (congrArg _ (commandOf_reserved67 hop rsv len))
  | reserved8F op rsv len =>
    have hop : 8 ≤ op.toNat := by simpa [Instr.wellFormed] using wf
    exact (decode_headerWord (.inl (by omega))).trans (congrArg _ (commandOf_reserved8F hop rsv len))

/-- Settles O2: `encode_of_decode`, and `commandOf` answers well-formed commands only. -/
theorem encodeOfDecodeIsTheHeader : Obligations.EncodeOfDecodeIsTheHeader := by
  intro h i hd
  refine ⟨encode_of_decode hd, ?_⟩
  obtain ⟨-, rfl⟩ := decode_eq_ok_iff.1 hd
  exact wellFormed_commandOf _ _ _

/-- The checks of R49 on the header read as a number. -/
theorem legalFields_iff (h : Word) : LegalFields (opOf h) (rsvOf h) (lenOf h) ↔
    6 ≤ h.toNat % 16 ∨ h.toNat / 16 % 16 = 0 ∧ (h.toNat % 16 = 2 ∨ h.toNat / 256 = 0) := by
  rw [LegalFields, toNat_opOf, rsvOf_eq_zero, opOf_eq_two, lenOf_eq_zero]

/-- The headers of the legal commands, as words (R49). -/
theorem legal_words_iff (h : Word) :
    h.toNat % 16 < 6 ∧ h.toNat / 16 % 16 = 0 ∧ (h.toNat % 16 = 2 ∨ h.toNat / 256 = 0) ↔
    h = 0 ∨ h = 1 ∨ h = 3 ∨ h = 4 ∨ h = 5 ∨ h.toNat % 256 = 2 := by
  simp only [← BitVec.toNat_inj, BitVec.reduceToNat]
  omega

/-- A header whose fields pass the checks, read as numbers, decodes to their command. -/
theorem decode_of_checks {h : Word} {op rsv len : Nat} (hop : h.toNat % 16 = op) (hrsv : h.toNat / 16 % 16 = rsv)
    (hlen : h.toNat / 256 = len) (hlegal : 6 ≤ op ∨ rsv = 0 ∧ (op = 2 ∨ len = 0)) :
    decode h = .ok (commandOf (BitVec.ofNat 4 op) (BitVec.ofNat 4 rsv) (BitVec.ofNat 24 len)) := by
  subst hop hrsv hlen
  rw [← opOf_eq_ofNat, ← rsvOf_eq_ofNat, ← lenOf_eq_ofNat]
  exact decode_eq_ok_iff.2 ⟨(legalFields_iff h).2 hlegal, rfl⟩

section checks
variable {h : Word}

theorem decode_reserved67 (hop : h.toNat % 16 = 6 ∨ h.toNat % 16 = 7) :
    decode h = .ok (.reserved67 (BitVec.ofNat 4 (h.toNat % 16)) (BitVec.ofNat 4 (h.toNat / 16 % 16))
      (BitVec.ofNat 24 (h.toNat / 256))) := by
  rw [decode_of_checks rfl rfl rfl (.inl (by omega)), commandOf_reserved67]
  rwa [← opOf_eq_ofNat, toNat_opOf]

theorem decode_reserved8F (hop : 8 ≤ h.toNat % 16) :
    decode h = .ok (.reserved8F (BitVec.ofNat 4 (h.toNat % 16)) (BitVec.ofNat 4 (h.toNat / 16 % 16))
      (BitVec.ofNat 24 (h.toNat / 256))) := by
  rw [decode_of_checks rfl rfl rfl (.inl (by omega)), commandOf_reserved8F]
  rwa [← opOf_eq_ofNat, toNat_opOf]

theorem decode_reservedBits (hop : h.toNat % 16 < 6) (hrsv : h.toNat / 16 % 16 ≠ 0) :
    decode h = .error .reservedBits := by
  rw [decode_eq_checks, if_neg (by omega), if_pos hrsv]

theorem decode_lenNotZero (hop : h.toNat % 16 < 6) (hrsv : h.toNat / 16 % 16 = 0) (h2 : h.toNat % 16 ≠ 2)
    (hlen : h.toNat / 256 ≠ 0) : decode h = .error .lenNotZero := by
  rw [decode_eq_checks, if_neg (by omega), if_neg (by omega), if_pos ⟨h2, hlen⟩]

end checks

/-- A header decodes to a legal command exactly if it is one of R49's list. -/
theorem decode_legal_iff (h : Word) :
    (∃ i, decode h = .ok i ∧ ∀ o r l, i ≠ .reserved67 o r l ∧ i ≠ .reserved8F o r l) ↔
    h = 0 ∨ h = 1 ∨ h = 3 ∨ h = 4 ∨ h = 5 ∨ h.toNat % 256 = 2 := by
  rw [← legal_words_iff]
  constructor
  · rintro ⟨i, hd, hne⟩
    obtain ⟨hlegal, rfl⟩ := decode_eq_ok_iff.1 hd
    have low := commandOf_ne_reserved_iff.1 hne
    rw [toNat_opOf] at low
    exact ⟨low, ((legalFields_iff h).1 hlegal).resolve_left (by omega)⟩
  · rintro ⟨low, checks⟩
    exact ⟨_, decode_eq_ok_iff.2 ⟨(legalFields_iff h).2 (.inr checks), rfl⟩,
      commandOf_ne_reserved_iff.2 (by rwa [toNat_opOf])⟩

/-- Settles O3: every clause is one outcome of the three checks. -/
theorem headerDecodeChecksOpcodeThenReservedThenLength :
    Obligations.HeaderDecodeChecksOpcodeThenReservedThenLength := by
  intro h op rsv len
  refine ⟨decode_reserved67, decode_reserved8F, decode_reservedBits, decode_lenNotZero, ?update, ?others,
    decode_legal_iff h⟩
  case update =>
    intro hop hrsv
    exact decode_of_checks hop hrsv rfl (.inr ⟨rfl, .inl rfl⟩)
  case others =>
    intro hrsv hlen
    refine ⟨?_, ?_, ?_, ?_, ?_⟩
    all_goals
      intro hop
      exact decode_of_checks hop hrsv hlen (.inr ⟨rfl, .inr rfl⟩)

/-- Settles O4: the decoder evaluated on the eleven words. -/
theorem sampleHeadersDecodeAsTheTableSays : Obligations.SampleHeadersDecodeAsTheTableSays :=
  ⟨rfl, rfl, rfl, rfl, rfl, rfl, rfl, rfl, rfl, rfl, rfl⟩

namespace Machine

/-- Settles O35: both rows raise the one command error, which `raiseCmdError_eq` gives as a record. -/
theorem reservedOpcodesRaiseIllegalOpcode : Obligations.ReservedOpcodesRaiseIllegalOpcode := by
  intro s op rsv len t
  have raised : raiseCmdError .illegalOpcode s = t := raiseCmdError_eq _ _
  rw [← raised]
  exact ⟨rfl, rfl⟩

end Machine

end Sys2Proof
end

section
/-! PROOFS. Command streams on paper (30_encoding.md R43, R44, R50 to R52): packets cut out of a word stream, payload
bytes packed into data words and read back, and a payload cut into pieces. -/

namespace Sys2Proof.Machine

/-! ### The packet splitter -/

/-- The words of a packet that have come. -/
def Packet.words (p : Packet) : List Word := p.header :: p.data

/-- The data words of a packet that have come and the missing ones are NDATA of its header (R44). -/
def Packet.Counted (p : Packet) : Prop := p.data.length + p.missing = ndata p.header

/-- What holds of the packet under way, where there is one: it is counted, and a data word is missing. -/
def UnderWay (current : Option Packet) : Prop := ∀ p ∈ current, p.Counted ∧ 0 < p.missing

/-- The words of the packet under way. -/
def wordsUnderWay (current : Option Packet) : List Word := current.elim [] Packet.words

theorem underWay_none : UnderWay none := nofun

theorem underWay_some {p : Packet} : UnderWay (some p) ↔ p.Counted ∧ 0 < p.missing := by
  simp [UnderWay]

/-- A header with data words to come starts a packet under way. -/
theorem underWay_header {w : Word} (hdata : ndata w ≠ 0) : UnderWay (some ⟨w, [], ndata w⟩) :=
  underWay_some.2 ⟨Nat.zero_add _, Nat.pos_of_ne_zero hdata⟩

/-- A data word that is not the last missing one leaves the packet under way. -/
theorem underWay_dataWord {p : Packet} (hp : UnderWay (some p)) (hmore : ¬p.missing ≤ 1) (w : Word) :
    UnderWay (some ⟨p.header, p.data ++ [w], p.missing - 1⟩) := by
  obtain ⟨hcount, -⟩ := underWay_some.1 hp
  refine underWay_some.2 ⟨?_, by simp only; omega⟩
  simp only [Packet.Counted, List.length_append, List.length_singleton] at hcount ⊢
  omega

/-- The last missing data word completes the packet. -/
theorem counted_lastDataWord {p : Packet} (hp : UnderWay (some p)) (hlast : p.missing ≤ 1) (w : Word) :
    Packet.Counted ⟨p.header, p.data ++ [w], 0⟩ := by
  obtain ⟨hcount, hpos⟩ := underWay_some.1 hp
  simp only [Packet.Counted, List.length_append, List.length_singleton] at hcount ⊢
  omega

theorem packetsFrom_words (current : Option Packet) (ws : List Word) :
    (packetsFrom current ws).flatMap Packet.words = wordsUnderWay current ++ ws := by
  fun_induction packetsFrom current ws with
  | case1 => rfl
  | case2 p => simp [wordsUnderWay]
  | case3 w ws hdata ih | case4 w ws hdata ih | case5 p w ws hlast ih | case6 p w ws hmore ih =>
    simp [wordsUnderWay, Packet.words, ih]

theorem packetsFrom_counted {current : Option Packet} (ws : List Word) (hcur : UnderWay current) :
    ∀ p ∈ packetsFrom current ws, p.Counted := by
  fun_induction packetsFrom current ws with
  | case1 => nofun
  | case2 p => simpa using (underWay_some.1 hcur).1
  | case3 w ws hdata ih => exact List.forall_mem_cons.2 ⟨hdata.symm, ih underWay_none⟩
  | case4 w ws hdata ih => exact ih (underWay_header hdata)
  | case5 p w ws hlast ih => exact List.forall_mem_cons.2 ⟨counted_lastDataWord hcur hlast w, ih underWay_none⟩
  | case6 p w ws hmore ih => exact ih (underWay_dataWord hcur hmore w)

/-- A complete packet before others leaves only their last one incomplete. -/
theorem complete_dropLast_cons {p : Packet} {ps : List Packet} (hp : p.missing = 0)
    (hps : ∀ q ∈ ps.dropLast, q.missing = 0) : ∀ q ∈ (p :: ps).dropLast, q.missing = 0 := by
  cases ps with
  | nil => nofun
  | cons p' ps => exact List.forall_mem_cons.2 ⟨hp, hps⟩

theorem packetsFrom_complete (current : Option Packet) (ws : List Word) :
    ∀ p ∈ (packetsFrom current ws).dropLast, p.missing = 0 := by
  fun_induction packetsFrom current ws with
  | case1 | case2 => nofun
  | case3 w ws hdata ih => exact complete_dropLast_cons rfl ih
  | case4 w ws hdata ih => exact ih
  | case5 p w ws hlast ih => exact complete_dropLast_cons rfl ih
  | case6 p w ws hmore ih => exact ih

/-- Settles O6: the three facts about the splitter, where no packet is under way. -/
theorem packetSplitterIsTotalAndLosesNoWord : Obligations.PacketSplitterIsTotalAndLosesNoWord := fun ws =>
  ⟨packetsFrom_words none ws, packetsFrom_counted ws underWay_none, packetsFrom_complete none ws⟩

/-! ### The assembler's UPDATE line -/

/-- Exactly the missing data words complete the packet under way. -/
theorem packetsFrom_missing {p : Packet} {ws : List Word} (hpos : ws ≠ []) (hlen : p.missing = ws.length) :
    packetsFrom (some p) ws = [⟨p.header, p.data ++ ws, 0⟩] := by
  induction ws generalizing p with
  | nil => exact absurd rfl hpos
  | cons w ws ih =>
    rw [List.length_cons] at hlen
    cases ws with
    | nil => rw [packetsFrom, if_pos (by rw [hlen]; rfl), packetsFrom]
    | cons w' ws =>
      rw [packetsFrom, if_neg (by simp [hlen]), ih (by simp) (by simp [hlen])]
      simp

/-- A header and exactly its NDATA data words are one packet (R44). -/
theorem packetsOf_packet {h : Word} {ws : List Word} (hlen : ws.length = ndata h) :
    packetsOf (h :: ws) = [⟨h, ws, 0⟩] := by
  unfold packetsOf
  by_cases hdata : ndata h = 0
  · obtain rfl : ws = [] := List.eq_nil_of_length_eq_zero (hlen.trans hdata)
    rw [packetsFrom, if_pos hdata, packetsFrom]
  · rw [packetsFrom, if_neg hdata, packetsFrom_missing (List.ne_nil_of_length_pos (by omega)) hlen.symm]
    rfl

theorem ndata_encode_update {len : Nat} (hlen : len < 2 ^ 24) :
    ndata (encode (.update (BitVec.ofNat 24 len))) = (len + 3) / 4 := by
  show ndata (headerWord (BitVec.ofNat 24 len) 0 2) = _
  rw [ndata, opOf_headerWord, if_pos rfl, lenOf_headerWord, BitVec.toNat_ofNat, Nat.mod_eq_of_lt hlen]

/-- Settles O7: the assembler's two checks are the refusals, and the second one makes the line one packet. -/
theorem assembledUpdateLineIsOnePacket : Obligations.AssembledUpdateLineIsOnePacket := by
  intro len ws
  unfold assembleUpdate
  split
  · next h =>
    obtain ⟨hlen, hwords⟩ := h
    refine ⟨iff_of_false nofun (by omega), fun line hline => ?_⟩
    cases hline
    exact packetsOf_packet (hwords.trans (ndata_encode_update hlen).symm)
  · next h => exact ⟨iff_of_true rfl (by omega), nofun⟩

/-! ### Payload bytes in data words -/

/-- The payload of data words is the first word's lanes, as many as there are bytes, and then that of the other words. -/
theorem payloadOf_cons (len : Nat) (w : Word) (ws : List Word) :
    payloadOf len (w :: ws) = [lane w 0, lane w 1, lane w 2, lane w 3].take len ++ payloadOf (len - 4) ws := by
  have first (n : Nat) (hn : n ≤ 4) : payloadOf n (w :: ws) = [lane w 0, lane w 1, lane w 2, lane w 3].take n := by
    match n, hn with
    | 0, _ | 1, _ | 2, _ | 3, _ | 4, _ => rfl
  have later (i : Nat) : payloadByte (w :: ws) (4 + i) = payloadByte ws i := by
    rw [payloadByte, payloadByte, Nat.add_div_left _ (by omega), List.getD_cons_succ, Nat.add_mod_left]
  rcases Nat.le_total len 4 with hlen | hlen
  · rw [first len hlen, Nat.sub_eq_zero_of_le hlen]
    exact (List.append_nil _).symm
  · obtain ⟨n, rfl⟩ := Nat.exists_eq_add_of_le hlen
    have split : payloadOf (4 + n) (w :: ws) = payloadOf 4 (w :: ws) ++ payloadOf n ws := by
      simp only [payloadOf, List.range_add, List.map_append, List.map_map, Function.comp_def, later]
    rw [split, first 4 le_rfl, Nat.add_sub_cancel_left, List.take_of_length_le (by simp),
      List.take_of_length_le (by simp)]

@[simp] theorem payloadOf_zero (ws : List Word) : payloadOf 0 ws = [] := rfl

theorem payloadOf_packBytes (payload : List Byte) : payloadOf payload.length (packBytes payload) = payload := by
  fun_induction packBytes payload with
  | case1 => rfl
  | case2 | case3 | case4 => simp [payloadOf_cons]
  | case5 b0 b1 b2 b3 rest ih => simp [payloadOf_cons, ih]

theorem packBytes_length (payload : List Byte) : (packBytes payload).length = (payload.length + 3) / 4 := by
  fun_induction packBytes payload with
  | case1 => rfl
  | case2 | case3 | case4 => simp
  | case5 b0 b1 b2 b3 rest ih =>
    simp only [List.length_cons, ih]
    omega

/-- Settles O8: four bytes, or the last few, are one data word. -/
theorem packedPayloadIsReadBack : Obligations.PackedPayloadIsReadBack := fun payload =>
  ⟨payloadOf_packBytes payload, packBytes_length payload⟩

/-! ### A payload in pieces -/

theorem length_of_mem_pieces {n : Nat} {payload b : List Byte} (hb : b ∈ pieces n payload) : b.length ≤ n := by
  obtain ⟨i, -, rfl⟩ := List.mem_map.1 hb
  exact List.length_take_le _ _

/-- Two payloads absorbed one after the other, the first of whole chunks (40_session_commands.md R61). -/
theorem absorbPayload_append_of_chunks {a : List Byte} (ha : a.length % 32 = 0) (b : List Byte) (s : State) :
    absorbPayload (a ++ b) s = absorbPayload b (absorbPayload a s) := by
  induction a using pieces_induction (by decide : 0 < 32) generalizing s with
  | nil => rw [List.nil_append, absorbPayload_nil]
  | short a hne hlt => exact absurd (List.eq_nil_of_length_eq_zero (by omega)) hne
  | whole a a' hlen ih =>
    rw [List.length_append] at ha
    rw [List.append_assoc, absorbPayload_append hlen, absorbPayload_append hlen, ih (by omega)]

/-- The pieces of a payload absorbed one after another are the payload absorbed whole, where a piece is whole chunks. -/
theorem foldl_absorbPayload_pieces {n : Nat} (hpos : 0 < n) (hchunks : n % 32 = 0) (payload : List Byte) (s : State) :
    (pieces n payload).foldl (fun u b => absorbPayload b u) s = absorbPayload payload s := by
  induction payload using pieces_induction hpos generalizing s with
  | nil => rw [pieces_nil hpos, absorbPayload_nil, List.foldl_nil]
  | short a hne hlt => rw [pieces_short a hne hlt.le, List.foldl_cons, List.foldl_nil]
  | whole a b hlen ih =>
    rw [pieces_append hpos a b hlen, List.foldl_cons, ih, absorbPayload_append_of_chunks (by rw [hlen, hchunks])]

theorem splitSize_pos : 0 < splitSize := by decide

theorem splitSize_mod : splitSize % 32 = 0 := by decide

theorem length_lt_of_mem_pieces_splitSize {payload b : List Byte} (hb : b ∈ pieces splitSize payload) :
    b.length < 2 ^ 24 :=
  (length_of_mem_pieces hb).trans_lt (by decide)

/-- Settles O50: a piece has at most `splitSize` bytes, which are whole chunks. -/
theorem updateCallPiecesAreOneUpdate : Obligations.UpdateCallPiecesAreOneUpdate := fun s payload =>
  ⟨fun _ hb => length_lt_of_mem_pieces_splitSize hb, foldl_absorbPayload_pieces splitSize_pos splitSize_mod payload s⟩

end Sys2Proof.Machine
end

section
/-! PROOFS. A packet, word by word (30_encoding.md R44, R46 to R48, 40_session_commands.md R53, R57, R60): what a header
does to the parser, and what the data words after it do, which are one fold of `dataWord` over them. -/

namespace Sys2Proof.Machine

/-! ### Malformed headers -/

/-- A malformed header is `badHeader` with the error of its code: also where the opcode is reserved, so that the header is
a command. -/
theorem engineStep_of_malformed {h : Word} {code : BitVec 4} {s : State} (hph : s.ph = .hdr) (hmal : Malformed h code) :
    ∃ c, errorCode c = code ∧ engineStep h s = .next (badHeader h c s) := by
  rcases hmal with ⟨hop, rfl⟩ | ⟨hop, hrsv, rfl⟩ | ⟨hop, hrsv, h2, hlen, rfl⟩
  · have raised : badHeader h .illegalOpcode s = raiseCmdError .illegalOpcode s := by
      rw [badHeader, if_neg]
      rw [opOf_eq_two]
      omega
    refine ⟨.illegalOpcode, rfl, ?_⟩
    rw [raised]
    rcases (by omega : (h.toNat % 16 = 6 ∨ h.toNat % 16 = 7) ∨ 8 ≤ h.toNat % 16) with low | high
    · exact engineStep_command hph (decode_reserved67 low)
    · exact engineStep_command hph (decode_reserved8F high)
  · exact ⟨.reservedBits, rfl, engineStep_malformed hph (decode_reservedBits hop hrsv)⟩
  · exact ⟨.lenNotZero, rfl, engineStep_malformed hph (decode_lenNotZero hop hrsv h2 hlen)⟩

/-- The effect of a malformed header as one record. -/
theorem badHeader_eq (h : Word) (c : CmdError) (s : State) :
    badHeader h c s =
      if h.toNat % 16 = 2 ∧ h.toNat / 256 ≠ 0 then
        { s with err := true, errcode := if s.err then s.errcode else errorCode c,
                 ph := .data, rem := BitVec.ofNat 24 (h.toNat / 256), disc := true, sbn := 0 }
      else { s with err := true, errcode := if s.err then s.errcode else errorCode c } := by
  simp only [badHeader, beginPayload, raiseCmdError_eq, opOf_eq_two, ne_eq, lenOf_eq_zero]
  rw [lenOf_eq_ofNat]

/-- Settles O10: the header is `badHeader` with its code, which `badHeader_eq` writes out. -/
theorem malformedHeaderRecordsItsCodeAndNothingElse : Obligations.MalformedHeaderRecordsItsCodeAndNothingElse := by
  intro s h code rest hin hph hroom hmal
  obtain ⟨c, rfl, hbad⟩ := engineStep_of_malformed (s := takeMove rest s) hph hmal
  rw [step_word hin hroom, hbad, badHeader_eq]
  rfl

/-! ### The parser after a header -/

theorem ndata_eq_numbers (h : Word) : ndata h = if h.toNat % 16 = 2 then (h.toNat / 256 + 3) / 4 else 0 := by
  simp only [ndata, opOf_eq_two, toNat_lenOf]

theorem ndata_update {h : Word} (hop : opOf h = 2) : ndata h = ((lenOf h).toNat + 3) / 4 := if_pos hop

/-- The headers that data words follow: UPDATE with LEN nonzero, malformed or not (R44). -/
theorem ndata_ne_zero_iff {h : Word} : ndata h ≠ 0 ↔ opOf h = 2 ∧ lenOf h ≠ 0 := by
  by_cases hop : opOf h = 2
  · rw [ndata_update hop, rem_ne_zero, and_iff_right hop]
    omega
  · exact iff_of_false (not_not.2 (if_neg hop)) fun payload => hop payload.1

theorem exec_next (i : Instr) (s : State) : ∃ t, exec i s = .next t := by
  obtain ⟨u, ws, hu⟩ := exec_withStreams i s
  exact ⟨_, hu s.rq s.inp⟩

/-- A command other than an UPDATE with payload leaves the parser at its position. -/
theorem exec_ph {i : Instr} {s t : State} (hi : ∀ len, i = .update len → len = 0) (he : exec i s = .next t) :
    t.ph = s.ph := by
  rcases exec_next_cases he with rfl | ⟨-, rfl⟩ | ⟨len, rfl, hlen, -⟩ | ⟨ws, rfl⟩ | rfl
  · rfl
  · rfl
  · exact absurd (hi len rfl) hlen
  · rfl
  · exact raiseCmdError_ph ..

/-- After a header with no data words the engine is at a header position (R44). -/
theorem engineStep_header_alone {h : Word} {s : State} (hph : s.ph = .hdr) (hdata : ndata h = 0) :
    ∃ t, engineStep h s = .next t ∧ t.ph = .hdr := by
  have hnone : ¬(opOf h = 2 ∧ lenOf h ≠ 0) := ndata_ne_zero_iff.not.1 (not_not.2 hdata)
  cases hd : decode h with
  | ok i =>
    obtain ⟨t, he⟩ := exec_next i s
    have noPayload : ∀ len, i = .update len → len = 0 := by
      rintro len rfl
      obtain rfl : headerWord len 0 2 = h := encode_of_decode hd
      simpa using hnone
    exact ⟨t, (engineStep_command hph hd).trans he, (exec_ph noPayload he).trans hph⟩
  | error c =>
    refine ⟨_, engineStep_malformed hph hd, ?_⟩
    rw [badHeader_ph, if_neg hnone, hph]

/-- After an UPDATE header with data words the parser takes LEN bytes, and discards them if the header is malformed. -/
theorem engineStep_header_payload {h : Word} {s : State} (hph : s.ph = .hdr) (hdata : ndata h ≠ 0) :
    ∃ discard u, engineStep h s = .next (beginPayload (lenOf h) discard u) ∧ u.rq = s.rq := by
  obtain ⟨hop, hlen⟩ := ndata_ne_zero_iff.1 hdata
  by_cases hrsv : rsvOf h = 0
  · have hd : decode h = .ok (.update (lenOf h)) := by
      refine decode_eq_ok_iff.2 ⟨.inr ⟨hrsv, .inl hop⟩, ?_⟩
      rw [hop]
      rfl
    exact ⟨false, s, (engineStep_command hph hd).trans (if_neg hlen), rfl⟩
  · have hd : decode h = .error .reservedBits := by
      rw [decode, if_neg (by rw [hop]; decide), if_pos hrsv]
    exact ⟨true, raiseCmdError .reservedBits s, (engineStep_malformed hph hd).trans (congrArg _ (if_pos ⟨hop, hlen⟩)),
      raiseCmdError_rq ..⟩

/-! ### One data word -/

/-- The engine is inside a payload, and the next data word's lanes have a place in SB if they are kept. -/
structure State.Receiving (s : State) : Prop where
  inPayload : s.ph = .data
  toCome : s.rem ≠ 0
  staged : s.disc = false → s.sbn.toNat < 32 ∧ s.sbn.toNat % 4 = 0

theorem takeMove_receiving {s : State} (hs : s.Receiving) (rest : List HostMove) : (takeMove rest s).Receiving :=
  ⟨hs.inPayload, hs.toCome, hs.staged⟩

theorem beginPayload_receiving {len : BitVec 24} (hlen : len ≠ 0) (discard : Bool) (s : State) :
    (beginPayload len discard s).Receiving :=
  ⟨rfl, hlen, fun _ => by rw [beginPayload_sbn]; decide⟩

/-- The lanes of a data word that is kept have a place in SB. -/
theorem State.Receiving.room {s : State} (hs : s.Receiving) (hd : s.disc = false) :
    s.sbn.toNat + payloadLanes s.rem ≤ 32 := by
  obtain ⟨hlt, hmod⟩ := hs.staged hd
  have hlanes : payloadLanes s.rem = min 4 s.rem.toNat := rfl
  omega

/-- Inside a payload the engine takes every word as a data word. -/
theorem State.Receiving.engineStep {s : State} (hs : s.Receiving) (w : Word) :
    engineStep w s = .next (dataWord w s) :=
  engineStep_data hs.inPayload fun ⟨hd, hfull⟩ => by
    have := (hs.staged hd).1
    omega

theorem dataWord_rem (w : Word) (s : State) : (dataWord w s).rem.toNat = s.rem.toNat - 4 := by
  rw [← toNat_rem_countLanes, dataWord_eq]
  split <;> simp

/-- The data word with which the payload ends. -/
theorem dataWord_last {s : State} (w : Word) (hlast : s.rem.toNat ≤ 4) : (dataWord w s).ph = .hdr := by
  rw [dataWord_eq, if_pos hlast, endPayload_ph]

/-- A data word before the last one. -/
theorem State.Receiving.dataWord {s : State} (hs : s.Receiving) (w : Word) (hmore : 4 < s.rem.toNat) :
    (dataWord w s).Receiving := by
  have toCome : (Machine.dataWord w s).rem ≠ 0 := by
    rw [rem_ne_zero, dataWord_rem]
    omega
  cases hd : s.disc with
  | true =>
    rw [dataWord_discarded w hd, if_neg (by omega)] at toCome ⊢
    exact ⟨hs.inPayload, toCome, fun hd' => Bool.noConfusion (hd.symm.trans hd')⟩
  | false =>
    obtain ⟨hlt, hmod⟩ := hs.staged hd
    have hlanes : payloadLanes s.rem = 4 := Nat.min_eq_left hmore.le
    obtain ⟨-, -, -, hph, full, waiting⟩ := dataWord_kept w hd hlt hs.toCome (hs.room hd)
    refine ⟨by rw [hph, if_neg (by omega), hs.inPayload], toCome, fun _ => ?_⟩
    by_cases hfull : s.sbn.toNat + payloadLanes s.rem = 32
    · rw [(full (.inl hfull)).2]
      decide
    · rw [(waiting (by omega) hmore).2]
      omega

/-! ### The data words of a packet -/

theorem sends_cons (w : Word) (ws : List Word) (rest : List HostMove) :
    sends (w :: ws) rest = .word w :: sends ws rest := rfl

theorem sends_append (ws ws' : List Word) (rest : List HostMove) :
    sends (ws ++ ws') rest = sends ws (sends ws' rest) := by
  simp [sends]

/-- The effect of consecutive data words. -/
def dataWords (ds : List Word) (s : State) : State := ds.foldl (fun u w => dataWord w u) s

@[simp] theorem dataWords_nil (s : State) : dataWords [] s = s := rfl

@[simp] theorem dataWords_cons (w : Word) (ds : List Word) (s : State) :
    dataWords (w :: ds) s = dataWords ds (dataWord w s) := rfl

theorem dataWords_append (ds ds' : List Word) (s : State) :
    dataWords (ds ++ ds') s = dataWords ds' (dataWords ds s) := List.foldl_append

section frame
variable (ds : List Word) (s : State)

@[simp] theorem dataWords_err : (dataWords ds s).err = s.err := by
  induction ds generalizing s with
  | nil => rfl
  | cons w ds ih => rw [dataWords_cons, ih, dataWord_err]

@[simp] theorem dataWords_errcode : (dataWords ds s).errcode = s.errcode := by
  induction ds generalizing s with
  | nil => rfl
  | cons w ds ih => rw [dataWords_cons, ih, dataWord_errcode]

@[simp] theorem dataWords_rq : (dataWords ds s).rq = s.rq := by
  induction ds generalizing s with
  | nil => rfl
  | cons w ds ih => rw [dataWords_cons, ih, dataWord_rq]

@[simp] theorem dataWords_inp : (dataWords ds s).inp = s.inp := by
  induction ds generalizing s with
  | nil => rfl
  | cons w ds ih => rw [dataWords_cons, ih, dataWord_inp]

end frame

/-- While data words are to come the engine stays inside the payload. -/
theorem State.Receiving.dataWords {s : State} (hs : s.Receiving) {ds : List Word} (hmore : 4 * ds.length < s.rem.toNat) :
    (dataWords ds s).Receiving := by
  induction ds generalizing s with
  | nil => exact hs
  | cons w ds ih =>
    rw [List.length_cons] at hmore
    rw [dataWords_cons]
    exact ih (hs.dataWord w (by omega)) (by rw [dataWord_rem]; omega)

/-- After the last data word the engine is at a header position. -/
theorem dataWords_last {s : State} {ds : List Word} (hne : ds ≠ []) (hlen : s.rem.toNat ≤ 4 * ds.length) :
    (dataWords ds s).ph = .hdr := by
  induction ds generalizing s with
  | nil => exact absurd rfl hne
  | cons w ds ih =>
    rw [List.length_cons] at hlen
    cases ds with
    | nil => exact dataWord_last w (by simpa using hlen)
    | cons w' ds =>
      rw [dataWords_cons]
      exact ih (by simp) (by rw [dataWord_rem]; omega)

theorem takeMove_takeMove (m m' : List HostMove) (s : State) : takeMove m (takeMove m' s) = takeMove m s := rfl

/-- A data word does not see the host's later moves. -/
theorem dataWord_takeMove (w : Word) (m : List HostMove) (s : State) :
    dataWord w (takeMove m s) = takeMove m (dataWord w s) := by
  rw [takeMove_eq_withStreams, dataWord_withStreams, takeMove_eq_withStreams, dataWord_rq]

theorem dataWords_takeMove (ds : List Word) (m : List HostMove) (s : State) :
    dataWords ds (takeMove m s) = takeMove m (dataWords ds s) := by
  induction ds generalizing s with
  | nil => rfl
  | cons w ds ih => rw [dataWords_cons, dataWord_takeMove, ih, dataWords_cons]

/-- A run over data words of one payload is their fold. -/
theorem run_dataWords {s : State} {ds : List Word} {rest : List HostMove} (hs : s.Receiving) (hroom : s.TakesWords)
    (hlen : 4 * ds.length < s.rem.toNat + 4) (hin : s.inp = sends ds rest) :
    run ds.length s = .next (takeMove rest (dataWords ds s)) := by
  induction ds using List.reverseRecOn generalizing rest with
  | nil =>
    obtain rfl : s.inp = rest := hin
    rfl
  | append_singleton ds w ih =>
    rw [List.length_append, List.length_singleton] at hlen ⊢
    rw [sends_append] at hin
    have before : (takeMove rest (dataWords ds s)).Receiving := takeMove_receiving (hs.dataWords (by omega)) rest
    have hst : step (takeMove (sends [w] rest) (dataWords ds s)) = .next (takeMove rest (dataWords (ds ++ [w]) s)) := by
      rw [step_word rfl (by rw [takeMove_rq, dataWords_rq]; exact hroom)]
      rw [dataWords_append, dataWords_cons, dataWords_nil, ← dataWord_takeMove]
      exact before.engineStep w
    rw [run_add 1 (ih (by omega) hin), run_one hst]

/-! ### A header and its data words -/

/-- `s` is inside a payload of which these many data words are to come, and takes them. -/
def State.Awaits (n : Nat) (s : State) : Prop := s.Receiving ∧ s.TakesWords ∧ n = (s.rem.toNat + 3) / 4

/-- A header leaves the parser at a header position, or awaiting its data words. -/
theorem engineStep_header {h : Word} {s : State} (hph : s.ph = .hdr) (hroom : s.TakesWords) :
    ∃ u, engineStep h s = .next u ∧ (ndata h = 0 → u.ph = .hdr) ∧ (ndata h ≠ 0 → u.Awaits (ndata h)) := by
  by_cases hdata : ndata h = 0
  · obtain ⟨u, heng, hu⟩ := engineStep_header_alone hph hdata
    exact ⟨u, heng, fun _ => hu, fun hne => absurd hdata hne⟩
  · obtain ⟨discard, u, heng, hrq⟩ := engineStep_header_payload hph hdata
    obtain ⟨hop, hlen⟩ := ndata_ne_zero_iff.1 hdata
    have hroom' : (beginPayload (lenOf h) discard u).TakesWords := by
      rw [State.TakesWords, beginPayload_rq, hrq]
      exact hroom
    exact ⟨_, heng, fun h0 => absurd h0 hdata,
      fun _ => ⟨beginPayload_receiving hlen discard u, hroom', ndata_update hop⟩⟩

/-- A header and some of the data words it awaits. -/
theorem run_header_dataWords {s u : State} {h : Word} {n : Nat} {ds : List Word} {rest : List HostMove}
    (hroom : s.TakesWords) (hin : s.inp = sends (h :: ds) rest) (heng : engineStep h s = .next u)
    (hu : n ≠ 0 → u.Awaits n) (hlen : ds.length ≤ n) :
    run (1 + ds.length) s = .next (takeMove rest (dataWords ds u)) := by
  have hst : step s = .next (takeMove (sends ds rest) u) :=
    (step_word (sends_cons h ds rest ▸ hin) hroom).trans (engineStep_takeMove _ heng)
  rw [Nat.add_comm, run_succ _ hst]
  cases ds with
  | nil => rfl
  | cons d ds =>
    rw [List.length_cons] at hlen
    obtain ⟨hrec, hroom', hn⟩ := hu (by omega)
    have hrun := run_dataWords (rest := rest) (takeMove_receiving hrec (sends (d :: ds) rest)) hroom'
      (by rw [takeMove_rem, List.length_cons]; omega) rfl
    rw [hrun, dataWords_takeMove, takeMove_takeMove]

/-- After a header and its NDATA data words the engine is at a header position. -/
theorem run_packet {s : State} {h : Word} {ds : List Word} {rest : List HostMove} (hph : s.ph = .hdr)
    (hroom : s.TakesWords) (hin : s.inp = sends (h :: ds) rest) (hlen : ds.length = ndata h) :
    ∃ t, run (1 + ds.length) s = .next t ∧ t.ph = .hdr ∧ t.inp = rest := by
  obtain ⟨u, heng, halone, hu⟩ := engineStep_header (h := h) hph hroom
  refine ⟨_, run_header_dataWords hroom hin heng hu hlen.le, ?_, rfl⟩
  rw [takeMove_ph]
  by_cases hdata : ndata h = 0
  · obtain rfl := List.eq_nil_of_length_eq_zero (hlen.trans hdata)
    exact halone hdata
  · obtain ⟨-, -, hn⟩ := hu hdata
    exact dataWords_last (List.ne_nil_of_length_pos (by omega)) (by omega)

/-- After a header and fewer than its NDATA data words the engine is inside the payload. -/
theorem run_incomplete_packet {s : State} {h : Word} {ds : List Word} {rest : List HostMove} (hph : s.ph = .hdr)
    (hroom : s.TakesWords) (hin : s.inp = sends (h :: ds) rest) (hlen : ds.length < ndata h) :
    ∃ u, run (1 + ds.length) s = .next u ∧ u.ph = .data := by
  obtain ⟨u, heng, -, hu⟩ := engineStep_header (h := h) hph hroom
  obtain ⟨hrec, -, hn⟩ := hu (Nat.ne_zero_of_lt hlen)
  exact ⟨_, run_header_dataWords hroom hin heng hu hlen.le, (hrec.dataWords (by omega)).inPayload⟩

/-- Settles O5: the whole packet, and the header with the first k - 1 of its data words. -/
theorem everyPacketIsItsHeaderAndItsDataWords : Obligations.EveryPacketIsItsHeaderAndItsDataWords := by
  intro s h ds rest hph hroom hin hlen
  rw [← ndata_eq_numbers] at hlen
  refine ⟨run_packet hph hroom hin hlen, fun k hk hkl => ?_⟩
  have hcount : (ds.take (k - 1)).length = k - 1 := by
    rw [List.length_take]
    omega
  have hcut : s.inp = sends (h :: ds.take (k - 1)) (sends (ds.drop (k - 1)) rest) := by
    rw [← sends_append, List.cons_append, List.take_append_drop]
    exact hin
  obtain ⟨u, hrun, hu⟩ := run_incomplete_packet hph hroom hcut (by omega)
  rw [hcount, Nat.add_sub_cancel' hk] at hrun
  exact ⟨u, hrun, hu⟩

/-! ### A discarded payload -/

/-- Discarded data words change nothing but the parser (40_session_commands.md R60). -/
theorem dataWords_discarded {s : State} {ds : List Word} (hd : s.disc = true) (hrem : s.rem ≠ 0)
    (hlen : ds.length = (s.rem.toNat + 3) / 4) :
    dataWords ds s = { s with rem := 0, ph := .hdr, disc := false } := by
  induction ds generalizing s with
  | nil =>
    have := rem_ne_zero.1 hrem
    rw [List.length_nil] at hlen
    omega
  | cons w ds ih =>
    rw [List.length_cons] at hlen
    rw [dataWords_cons, dataWord_discarded w hd]
    have left := toNat_rem_countLanes s
    split
    · next hlast =>
      obtain rfl : ds = [] := List.eq_nil_of_length_eq_zero (by omega)
      rw [dataWords_nil, ← (rem_countLanes_eq_zero s).2 hlast]
      rfl
    · next hmore =>
      rw [ih (s := countLanes s) hd (mt (rem_countLanes_eq_zero s).1 hmore) (by omega)]
      rfl

/-- A malformed UPDATE header at a header position where nothing is pending, its discarded data words and nothing else. -/
theorem dataWords_badHeader {s : State} {h : Word} {ds : List Word} (c : CmdError) (hs : s.Inv) (hph : s.ph = .hdr)
    (hop : opOf h = 2) (hlen : ds.length = ndata h) : dataWords ds (badHeader h c s) = raiseCmdError c s := by
  obtain ⟨hrem, hdisc, hsbn⟩ := hs.atHeader hph
  by_cases hne : lenOf h = 0
  · obtain rfl : ds = [] := List.eq_nil_of_length_eq_zero (by rw [hlen, ndata_update hop, hne]; rfl)
    exact if_neg fun ⟨_, h⟩ => h hne
  · have hbad : badHeader h c s = beginPayload (lenOf h) true (raiseCmdError c s) := if_pos ⟨hop, hne⟩
    rw [hbad, dataWords_discarded rfl hne (hlen.trans (ndata_update hop))]
    apply State.ext <;> simp [*]

/-- Settles O11: `badHeader` sets the parser, the data words set it back to what the invariant says it was. -/
theorem malformedUpdatePacketIsDiscarded : Obligations.MalformedUpdatePacketIsDiscarded := by
  intro s h ds rest hs hph hroom hop hrsv hlen hin
  have hcount : ds.length = ndata h := by rw [ndata_eq_numbers, if_pos hop, hlen]
  obtain ⟨u, heng, -, hu⟩ := engineStep_header (h := h) hph hroom
  obtain ⟨c, hcode, hbad⟩ :=
    engineStep_of_malformed (code := 2) (s := s) hph (.inr (.inl ⟨by omega, hrsv, rfl⟩))
  cases heng.symm.trans hbad
  rw [run_header_dataWords hroom hin heng hu hcount.le,
    dataWords_badHeader c hs hph ((opOf_eq_two h).2 hop) hcount, raiseCmdError_eq, hcode]
  rfl

end Sys2Proof.Machine
end

section
/-! PROOFS. A kept payload, word by word (40_session_commands.md R57, R59): the data words of an UPDATE absorb the payload
that they hold; and the source's calls as packets (30_encoding.md R51). -/

namespace Sys2Proof.Machine

/-! ### Absorbing reads and writes the session only -/

theorem absorbBlock_session_congr {s t : State} (h : s.session = t.session) (buf : Chunk) (len : Nat) :
    (absorbBlock buf len s).session = (absorbBlock buf len t).session := by
  obtain ⟨hh, hbc, hnc, hinit⟩ := session_eq_iff.1 h
  simp [session_eq_iff, hh, hbc, hnc, hinit]

theorem absorbPayload_session_congr {s t : State} (h : s.session = t.session) (payload : List Byte) :
    (absorbPayload payload s).session = (absorbPayload payload t).session := by
  unfold absorbPayload
  generalize chunksOf payload = cs
  induction cs generalizing s t with
  | nil => exact h
  | cons c cs ih => exact ih (absorbBlock_session_congr h _ _)

/-! ### The bytes in the staging buffer -/

/-- The bytes staged in SB are `bytes`. -/
structure State.Holds (s : State) (bytes : List Byte) : Prop where
  count : s.sbn.toNat = bytes.length
  staged : ∀ i : Fin 32, i.val < bytes.length → s.sb[i] = (bufferOf bytes)[i]

theorem holds_nil {s : State} (h : s.sbn = 0) : s.Holds [] :=
  ⟨by rw [h]; rfl, fun _ hi => absurd hi (Nat.not_lt_zero _)⟩

/-- Bytes staged behind those that SB holds. -/
theorem State.Holds.staging {s : State} {held : List Byte} (hs : s.Holds held) (bytes : List Byte) (i : Fin 32)
    (hi : i.val < (held ++ bytes).length) :
    (staging s.sb s.sbn.toNat bytes)[i] = (bufferOf (held ++ bytes))[i] := by
  rw [List.length_append] at hi
  rw [bufferOf_getElem, hs.count]
  simp only [Machine.staging, Fin.getElem_fin, Vector.getElem_ofFn]
  by_cases old : i.val < held.length
  · have hold := hs.staged i old
    rw [bufferOf_getElem] at hold
    rw [if_neg (by omega), List.getD_append _ _ _ _ old, ← hold]
    rfl
  · rw [if_pos (by omega), List.getD_append_right _ _ _ _ (by omega)]

theorem payloadOf_cons_payloadBytes (rem : BitVec 24) (w : Word) (ws : List Word) :
    payloadOf rem.toNat (w :: ws) = payloadBytes w rem ++ payloadOf (rem.toNat - 4) ws := by
  rw [payloadOf_cons, payloadBytes, payloadLanes, Nat.min_comm, List.take_eq_take_min]
  rfl

/-- A kept data word, the bytes in SB before it and its own: as a chunk they are absorbed, or they are held. -/
theorem dataWord_holds {s : State} {held : List Byte} (w : Word) (hs : s.Receiving) (hd : s.disc = false)
    (hheld : s.Holds held) :
    let chunk := held ++ payloadBytes w s.rem
    let t := dataWord w s
    t.disc = false ∧ chunk.length ≤ 32 ∧
    (chunk.length = 32 ∨ s.rem.toNat ≤ 4 → t.session = (absorbPayload chunk s).session ∧ t.Holds []) ∧
    (chunk.length < 32 → 4 < s.rem.toNat → t.session = s.session ∧ t.Holds chunk) := by
  intro chunk t
  have hlen : chunk.length = s.sbn.toNat + payloadLanes s.rem := by
    rw [List.length_append, payloadBytes_length, hheld.count]
  have hne : chunk ≠ [] := by
    have hrem := rem_ne_zero.1 hs.toCome
    have hlanes : payloadLanes s.rem = min 4 s.rem.toNat := rfl
    exact List.ne_nil_of_length_pos (by omega)
  have hroom := hs.room hd
  obtain ⟨hsb, hdisc, -, -, absorbed, waiting⟩ := dataWord_kept w hd (hs.staged hd).1 hs.toCome hroom
  have habsorb : absorbBlock (staging s.sb s.sbn.toNat (payloadBytes w s.rem)) chunk.length s = absorbPayload chunk s := by
    rw [absorbPayload_short hne (by omega)]
    exact absorbBlock_congr (hheld.staging _) s
  rw [← hlen] at absorbed waiting hroom
  rw [habsorb] at absorbed
  refine ⟨hdisc, hroom, fun complete => ?_, fun hopen hmore => ?_⟩
  · obtain ⟨hsession, hsbn⟩ := absorbed complete
    exact ⟨hsession, holds_nil hsbn⟩
  · obtain ⟨hsession, hsbn⟩ := waiting hopen hmore
    exact ⟨hsession, hsbn, fun i hi => by rw [hsb]; exact hheld.staging _ i hi⟩

/-- The data words of a kept payload absorb the bytes that SB holds and then the payload. -/
theorem dataWords_session {s : State} {held : List Byte} {ds : List Word} (hs : s.Receiving) (hd : s.disc = false)
    (hheld : s.Holds held) (hlen : ds.length = (s.rem.toNat + 3) / 4) :
    (dataWords ds s).session = (absorbPayload (held ++ payloadOf s.rem.toNat ds) s).session := by
  induction ds generalizing s held with
  | nil =>
    have := rem_ne_zero.1 hs.toCome
    rw [List.length_nil] at hlen
    omega
  | cons w ds ih =>
    rw [List.length_cons] at hlen
    obtain ⟨hdisc, hshort, absorbed, waiting⟩ := dataWord_holds w hs hd hheld
    have hrem := dataWord_rem w s
    rw [dataWords_cons, payloadOf_cons_payloadBytes, ← List.append_assoc, ← hrem]
    generalize held ++ payloadBytes w s.rem = chunk at *
    by_cases hlast : s.rem.toNat ≤ 4
    · obtain rfl : ds = [] := List.eq_nil_of_length_eq_zero (by omega)
      rw [hrem, Nat.sub_eq_zero_of_le hlast, payloadOf_zero, List.append_nil, dataWords_nil]
      exact (absorbed (.inr hlast)).1
    · have later := hs.dataWord w (by omega)
      rcases Nat.lt_or_eq_of_le hshort with hopen | hfull
      · obtain ⟨hsession, hholds⟩ := waiting hopen (by omega)
        rw [ih later hdisc hholds (by omega), absorbPayload_session_congr hsession]
      · obtain ⟨hsession, hholds⟩ := absorbed (.inl hfull)
        rw [ih later hdisc hholds (by omega), List.nil_append, absorbPayload_session_congr hsession,
          absorbPayload_append_of_chunks (by rw [hfull])]

/-! ### Packets and calls -/

/-- `t` is at a header position, with this session, these moves of the host to come, and the responses and the error
record of `s`. -/
structure State.LeadsTo (s : State) (session : Session) (rest : List HostMove) (t : State) : Prop where
  session : t.session = session
  ph : t.ph = .hdr
  rq : t.rq = s.rq
  err : t.err = s.err
  errcode : t.errcode = s.errcode
  inp : t.inp = rest

theorem State.LeadsTo.trans {s t u : State} {σ τ : Session} {m rest : List HostMove} (hst : s.LeadsTo σ m t)
    (htu : t.LeadsTo τ rest u) : s.LeadsTo τ rest u :=
  ⟨htu.session, htu.ph, htu.rq.trans hst.rq, htu.err.trans hst.err, htu.errcode.trans hst.errcode, htu.inp⟩

/-- The header of a well-formed command runs that command. -/
theorem engineStep_encode {i : Instr} {s : State} (hph : s.ph = .hdr) (wf : i.wellFormed = true) :
    engineStep (encode i) s = exec i s :=
  engineStep_command hph (decodeOfEncodeIsTheCommand i wf)

/-- A command of one word, from a header position. -/
theorem run_command {s t : State} {i : Instr} {rest : List HostMove} (hph : s.ph = .hdr) (hroom : s.TakesWords)
    (wf : i.wellFormed = true) (hin : s.inp = sends [encode i] rest) (he : exec i (takeMove rest s) = .next t) :
    run 1 s = .next t :=
  run_one ((step_word hin hroom).trans ((engineStep_encode (s := takeMove rest s) hph wf).trans he))

/-- A legal UPDATE packet absorbs its payload (R59), whatever stands in the unused lanes of its last word. -/
theorem run_update {s : State} {payload : List Byte} {ds : List Word} {rest : List HostMove} (hph : s.ph = .hdr)
    (hroom : s.TakesWords) (hlt : payload.length < 2 ^ 24) (hlen : ds.length = (payload.length + 3) / 4)
    (hpayload : payloadOf payload.length ds = payload)
    (hin : s.inp = sends (encode (.update (BitVec.ofNat 24 payload.length)) :: ds) rest) :
    ∃ t, run (1 + ds.length) s = .next t ∧ s.LeadsTo (absorbPayload payload s).session rest t := by
  have hval : (BitVec.ofNat 24 payload.length).toNat = payload.length := by
    rw [BitVec.toNat_ofNat, Nat.mod_eq_of_lt hlt]
  generalize BitVec.ofNat 24 payload.length = len at hval hin
  have heng : engineStep (encode (.update len)) s = execUpdate len s := engineStep_encode hph rfl
  by_cases hzero : len = 0
  · have hnone : payload.length = 0 := by rw [← hval, hzero]; rfl
    obtain rfl := List.eq_nil_of_length_eq_zero hnone
    obtain rfl : ds = [] := List.eq_nil_of_length_eq_zero hlen
    refine ⟨_, run_header_dataWords (n := 0) hroom hin (heng.trans (if_pos hzero)) (absurd rfl) le_rfl, ?_⟩
    rw [absorbPayload_nil]
    exact ⟨rfl, hph, rfl, rfl, rfl, rfl⟩
  · have hrec : (beginPayload len false s).Receiving := beginPayload_receiving hzero false s
    have hcount : ds.length = ((beginPayload len false s).rem.toNat + 3) / 4 := by rw [beginPayload_rem, hval, hlen]
    have hpos := rem_ne_zero.1 hzero
    refine ⟨_, run_header_dataWords hroom hin (heng.trans (if_neg hzero)) (fun _ => ⟨hrec, hroom, hcount⟩) le_rfl,
      ?session, ?ph, ?rq, ?err, ?errcode, rfl⟩
    case session =>
      have habsorbed := dataWords_session hrec rfl (holds_nil rfl) hcount
      rw [beginPayload_rem, hval, hpayload, List.nil_append] at habsorbed
      exact habsorbed.trans (absorbPayload_session_congr (s := beginPayload len false s) (t := s) rfl payload)
    case ph =>
      rw [takeMove_ph]
      exact dataWords_last (List.ne_nil_of_length_pos (by omega)) (by rw [beginPayload_rem]; omega)
    all_goals simp

/-- UPDATE packets one after another absorb their payloads one after another, into the session that was there. -/
theorem run_updatePackets {s v : State} {bs : List (List Byte)} {rest : List HostMove} (hph : s.ph = .hdr)
    (hroom : s.TakesWords) (hlt : ∀ b ∈ bs, b.length < 2 ^ 24) (hv : s.session = v.session)
    (hin : s.inp = sends (bs.flatMap updatePacket) rest) :
    ∃ t, run (bs.flatMap updatePacket).length s = .next t ∧
      s.LeadsTo (bs.foldl (fun u b => absorbPayload b u) v).session rest t := by
  induction bs generalizing s v with
  | nil => exact ⟨s, rfl, hv, hph, rfl, rfl, rfl, hin⟩
  | cons b bs ih =>
    obtain ⟨hb, hbs⟩ := List.forall_mem_cons.1 hlt
    rw [List.flatMap_cons, sends_append] at hin
    have hcount : (updatePacket b).length = 1 + (packBytes b).length := Nat.add_comm _ _
    obtain ⟨u, hrun, hu⟩ := run_update hph hroom hb (packBytes_length b) (payloadOf_packBytes b) hin
    obtain ⟨t, hrest, ht⟩ := ih (v := absorbPayload b v) hu.ph (by rw [State.TakesWords, hu.rq]; exact hroom) hbs
      (hu.session.trans (absorbPayload_session_congr hv b)) hu.inp
    refine ⟨t, ?_, hu.trans ht⟩
    rw [List.flatMap_cons, List.length_append, hcount, run_add _ hrun, hrest]

/-- The packets of `update(B)` absorb B, however long it is. -/
theorem run_updateCall {s v : State} {payload : List Byte} {rest : List HostMove} (hph : s.ph = .hdr)
    (hroom : s.TakesWords) (hv : s.session = v.session) (hin : s.inp = sends (updateCall payload) rest) :
    ∃ t, run (updateCall payload).length s = .next t ∧ s.LeadsTo (absorbPayload payload v).session rest t := by
  have hrun := run_updatePackets hph hroom (fun _ hb => length_lt_of_mem_pieces_splitSize hb) hv hin
  rwa [foldl_absorbPayload_pieces splitSize_pos splitSize_mod] at hrun

/-- START, from a header position, leaves the session of the reset state (40_session_commands.md R55). -/
theorem run_start {s : State} {rest : List HostMove} (hph : s.ph = .hdr) (hroom : s.TakesWords)
    (hin : s.inp = sends [encode .start] rest) :
    ∃ t, run 1 s = .next t ∧ s.LeadsTo State.reset.session rest t :=
  ⟨clearSession (takeMove rest s), run_command hph hroom rfl hin rfl, rfl, hph, rfl, rfl, rfl, rfl⟩

/-- The packets of `start(B)` leave the session that absorbing B after reset leaves (R64). -/
theorem run_startCall {s : State} {payload : List Byte} {rest : List HostMove} (hph : s.ph = .hdr)
    (hroom : s.TakesWords) (hin : s.inp = sends (startCall payload) rest) :
    ∃ t, run (startCall payload).length s = .next t ∧
      s.LeadsTo (absorbPayload payload State.reset).session rest t := by
  rw [startCall, ← List.singleton_append] at hin ⊢
  rw [sends_append] at hin
  obtain ⟨u, hstart, hu⟩ := run_start hph hroom hin
  obtain ⟨t, hrun, ht⟩ := run_updateCall hu.ph (by rw [State.TakesWords, hu.rq]; exact hroom) hu.session hu.inp
  refine ⟨t, ?_, hu.trans ht⟩
  rw [List.length_append, List.length_singleton, run_add _ hstart, hrun]

/-- The packet of `digest()`, from a header position, answers the digest text of H. -/
theorem run_digestCall {s : State} {rest : List HostMove} (hph : s.ph = .hdr) (hroom : s.TakesWords)
    (hin : s.inp = sends digestCall rest) :
    run digestCall.length s = .next (rspWrite (hexWords s.h) (takeMove rest s)) :=
  run_command (i := .rdhex) hph hroom rfl hin rfl

/-- Settles O52: the digest call reads the H that the start call left. -/
theorem startThenDigestAnswersTheDigestOfThePayload : Obligations.StartThenDigestAnswersTheDigestOfThePayload := by
  intro s payload rest hph hroom ws
  obtain ⟨t, hrun, ht⟩ := run_startCall (s := { s with inp := sends ws rest }) hph hroom
    (sends_append (startCall payload) digestCall rest)
  have hdigest := run_digestCall ht.ph (by rw [State.TakesWords, ht.rq]; exact hroom) ht.inp
  have hh : t.h = (absorbPayload payload State.reset).h := by rw [← session_h t, ht.session, session_h]
  refine ⟨rspWrite (hexWords t.h) (takeMove rest t), ?run, ?rq, ht.session, ht.ph, ht.err, ht.errcode, rfl⟩
  case run => rw [List.length_append, run_add _ hrun, hdigest]
  case rq => rw [rspWrite_rq, takeMove_rq, ht.rq, hh]

end Sys2Proof.Machine
end

section
/-! PROOFS. The commands of one word and an UPDATE's header (40_session_commands.md R53 to R56, R63), and when no transfer
takes place (70_reset_and_hazards.md R112, R113). -/

namespace Sys2Proof.Machine

/-! ### One command -/

/-- Settles O9: the word is taken, and at a header position it is the command it decodes to. -/
theorem stepRunsTheDecodedCommand : Obligations.StepRunsTheDecodedCommand := by
  have runs : ∀ (s : State) (w : Word) (rest : List HostMove) (i : Instr), s.inp = .word w :: rest → s.ph = .hdr →
      s.TakesWords → decode w = .ok i → step s = exec i { s with inp := rest } :=
    fun s w rest i hin hph hroom hd => (step_word hin hroom).trans (engineStep_command (s := takeMove rest s) hph hd)
  exact ⟨runs, fun s rest i hin hph hroom wf => runs s _ rest i hin hph hroom (decodeOfEncodeIsTheCommand i wf)⟩

/-- Settles O29: NOP is the identity. -/
theorem nopChangesNothing : Obligations.NopChangesNothing := ⟨rfl, fun _ => rfl⟩

/-- Settles O30: START is `clearSession`. -/
theorem startClearsTheSessionAndNothingElse : Obligations.StartClearsTheSessionAndNothingElse := by
  refine ⟨rfl, fun s => ⟨clearSession s, rfl, ?_⟩⟩
  simp

/-- Settles O31: the low byte 02 passes the decoder's checks; LEN alone decides what the header does. -/
theorem updateHeaderAwaitsItsPayload : Obligations.UpdateHeaderAwaitsItsPayload := by
  constructor
  · intro h hlow
    exact decode_of_checks (op := 2) (rsv := 0) (by omega) (by omega) rfl (.inr ⟨rfl, .inl rfl⟩)
  · intro s len
    have hzero : len.toNat = 0 ↔ len = 0 := BitVec.toNat_inj (y := 0)
    exact (if_congr hzero rfl rfl).symm

/-- The two flags of STATUS. -/
theorem toNat_statusFlags (err init : Bool) :
    (flagWord err <<< 1 ||| flagWord init).toNat = (if init then 1 else 0) + (if err then 2 else 0) := by
  cases err <;> cases init <;> rfl

/-- STATUS read as a number (10_state.md R17). -/
theorem toNat_statusWord (s : State) :
    (statusWord s).toNat = (if s.init then 1 else 0) + (if s.err then 2 else 0) + 16 * s.errcode.toNat := by
  have hcode : (s.errcode.setWidth 32 <<< 4).toNat = s.errcode.toNat <<< 4 := by
    have := s.errcode.isLt
    rw [BitVec.toNat_shiftLeft, BitVec.toNat_setWidth, Nat.shiftLeft_eq, Nat.shiftLeft_eq]
    omega
  have hflags : (if s.init then 1 else 0) + (if s.err then 2 else 0) < 2 ^ 4 := by split <;> split <;> decide
  rw [statusWord, BitVec.or_assoc, BitVec.toNat_or, toNat_statusFlags, hcode,
    ← Nat.shiftLeft_add_eq_or_of_lt hflags, Nat.shiftLeft_eq]
  omega

/-- Settles O32: the one word is STATUS. -/
theorem rdstatAnswersTheStatusWord : Obligations.RdstatAnswersTheStatusWord :=
  ⟨rfl, fun s => ⟨statusWord s, rfl, toNat_statusWord s⟩⟩

/-! ### Steps that do not take place -/

theorem overDepth_iff {ws : List Word} {depth : Nat} : overDepth ws depth = true ↔ depth < ws.length := by
  fun_induction overDepth ws depth with
  | case1 => simp
  | case2 => simp
  | case3 w ws depth ih => rw [ih, List.length_cons, Nat.succ_lt_succ_iff]

/-- The engine's own step stops only at a payload byte that has no place in SB. -/
theorem engineStep_cases (w : Word) (s : State) :
    (∃ t, engineStep w s = .next t) ∨
    (engineStep w s = .refused .stagingOverrun ∧ 32 ≤ s.sbn.toNat) := by
  cases hph : s.ph with
  | hdr =>
    cases hd : decode w with
    | ok i => exact .inl ((exec_next i s).imp fun _ he => (engineStep_command hph hd).trans he)
    | error c => exact .inl ⟨_, engineStep_malformed hph hd⟩
  | data =>
    by_cases hfull : s.disc = false ∧ 32 ≤ s.sbn.toNat
    · exact .inr ⟨by simp [engineStep, hph, payloadStep, hfull], hfull.2⟩
    · exact .inl ⟨_, engineStep_data hph hfull⟩

/-- What keeps the host's next move from taking place (70_reset_and_hazards.md R112, R113). -/
def State.StuckFor (s : State) : Fault → Prop
  | .stuckNoHostMove => s.inp = []
  | .stuckResponsesNotAccepted => (∃ w rest, s.inp = .word w :: rest) ∧ Config.rqDepth < s.rq.length
  | .stuckNoResponse => (∃ rest, s.inp = .accept :: rest) ∧ s.rq = []

theorem step_of_stuckFor {s : State} {r : Fault} (h : s.StuckFor r) : step s = .fault r := by
  cases r with
  | stuckNoHostMove => exact step_none h
  | stuckResponsesNotAccepted =>
    obtain ⟨⟨w, rest, hin⟩, hfull⟩ := h
    exact step_word_full hin (overDepth_iff.2 hfull)
  | stuckNoResponse =>
    obtain ⟨⟨rest, hin⟩, hrq⟩ := h
    exact step_accept_empty hin hrq

/-- A step takes place, or something keeps it from taking place, or SB has no place for a payload byte. -/
theorem step_cases (s : State) :
    (∃ t, step s = .next t) ∨ (∃ r, s.StuckFor r) ∨ (step s = .refused .stagingOverrun ∧ 32 ≤ s.sbn.toNat) := by
  match hin : s.inp with
  | [] => exact .inr (.inl ⟨.stuckNoHostMove, hin⟩)
  | .reset :: rest => exact .inl ⟨_, step_reset hin⟩
  | .accept :: rest =>
    by_cases hrq : s.rq = []
    · exact .inr (.inl ⟨.stuckNoResponse, ⟨rest, hin⟩, hrq⟩)
    · exact .inl ⟨_, step_accept hin hrq⟩
  | .word w :: rest =>
    cases hfull : overDepth s.rq Config.rqDepth with
    | true => exact .inr (.inl ⟨.stuckResponsesNotAccepted, ⟨w, rest, hin⟩, overDepth_iff.1 hfull⟩)
    | false =>
      rw [step_word hin hfull]
      exact (engineStep_cases w (takeMove rest s)).imp_right .inr

theorem step_fault_iff {s : State} {r : Fault} : step s = .fault r ↔ s.StuckFor r := by
  refine ⟨fun hst => ?_, step_of_stuckFor⟩
  rcases step_cases s with ⟨t, h⟩ | ⟨r', h⟩ | ⟨h, -⟩
  · cases h.symm.trans hst
  · cases (step_of_stuckFor h).symm.trans hst
    exact h
  · cases h.symm.trans hst

theorem step_refused {s : State} {r : Refusal} (hst : step s = .refused r) : 32 ≤ s.sbn.toNat := by
  rcases step_cases s with ⟨t, h⟩ | ⟨r', h⟩ | ⟨-, h⟩
  · cases h.symm.trans hst
  · cases (step_of_stuckFor h).symm.trans hst
  · exact h

/-- Settles O16: a fault is what keeps the step from taking place, and the invariant leaves room in SB. -/
theorem stepStopsOnlyWhenNothingCanTransfer : Obligations.StepStopsOnlyWhenNothingCanTransfer := fun _ =>
  ⟨step_fault_iff, step_fault_iff, step_fault_iff,
    fun hs _ hst => absurd (step_refused hst) (Nat.not_le.2 hs.staged.1)⟩

end Sys2Proof.Machine
end

section
/-! PROOFS. UPDATE (40_session_commands.md R57 to R61, R64): the step on one data word, the chunks of a payload, and what
absorbing them does to the session. -/

namespace Sys2Proof.Machine

/-! ### One data word -/

/-- The lanes of a data word counted off REM, as one record. -/
theorem countLanes_eq (s : State) :
    countLanes s = { s with rem := if s.rem.toNat ≤ 4 then 0 else s.rem - 4 } := by
  have hrem : (countLanes s).rem = if s.rem.toNat ≤ 4 then 0 else s.rem - 4 := by
    split
    · next hlast => exact (rem_countLanes_eq_zero s).2 hlast
    · next hmore =>
      rw [countLanes_rem, payloadLanes, Nat.min_eq_left (by omega)]
      rfl
  rw [← hrem]
  rfl

/-- Settles O12: the data word is taken, and a discarded one only counts its lanes. -/
theorem discardedDataWordOnlyCountsDown : Obligations.DiscardedDataWordOnlyCountsDown := by
  intro s w rest hin hph hd hroom
  have hkept : ¬((takeMove rest s).disc = false ∧ 32 ≤ (takeMove rest s).sbn.toNat) := by simp [hd]
  rw [step_word hin hroom, engineStep_data (s := takeMove rest s) hph hkept,
    dataWord_discarded (s := takeMove rest s) w hd, countLanes_eq, takeMove_rem]
  congr 1
  split <;> rfl

/-- The staging buffer after a data word, lane by lane. -/
theorem staging_payloadBytes (sb : Chunk) (n : Nat) (w : Word) (rem : BitVec 24) :
    staging sb n (payloadBytes w rem) =
      Vector.ofFn fun i : Fin 32 => if n ≤ i.val ∧ i.val < n + min 4 rem.toNat then lane w (i.val - n) else sb[i] := by
  have hlanes : (payloadBytes w rem).length = min 4 rem.toNat := payloadBytes_length w rem
  unfold staging
  congr 1
  funext i
  rw [hlanes]
  split
  · next h => exact payloadBytes_getD w rem _ (by rw [payloadLanes]; omega)
  · rfl

/-- Settles O13: `dataWord_kept` on the state with the word taken off the stream. -/
theorem dataWordStagesItsLanesAndAbsorbsCompletedChunks :
    Obligations.DataWordStagesItsLanesAndAbsorbsCompletedChunks := by
  intro s w rest hin hph hd hroom hrem n hn staged
  have hpos := rem_ne_zero.1 hrem
  have hsbn : s.sbn.toNat < 32 := by omega
  have hsb : staging s.sb s.sbn.toNat (payloadBytes w s.rem) = staged := staging_payloadBytes ..
  obtain ⟨tsb, tdisc, trem, tph, absorbed, waiting⟩ := dataWord_kept (s := takeMove rest s) w hd hsbn hrem hn
  simp only [takeMove_sb, takeMove_sbn, takeMove_rem, takeMove_ph, hsb, hph] at tsb tph absorbed waiting
  refine ⟨dataWord w (takeMove rest s), ?step, by simp, by simp, by simp, by simp, tdisc, tsb, ?rem, ?ph, absorbed,
    waiting⟩
  case step =>
    rw [step_word hin hroom]
    exact engineStep_data hph fun ⟨_, hfull⟩ => absurd hfull (by simpa using hsbn)
  case rem => rw [trem, toNat_rem_countLanes, takeMove_rem]
  case ph =>
    rw [tph]
    split <;> simp [*]

/-! ### The chunks of a payload -/

theorem length_pieces (n : Nat) (payload : List Byte) : (pieces n payload).length = (payload.length + n - 1) / n := by
  simp [pieces]

theorem flatten_pieces {n : Nat} (hn : 0 < n) (payload : List Byte) : (pieces n payload).flatten = payload := by
  induction payload using pieces_induction hn with
  | nil => rw [pieces_nil hn, List.flatten_nil]
  | short a hne hlt => rw [pieces_short a hne hlt.le, List.flatten_singleton]
  | whole a b hlen ih => rw [pieces_append hn a b hlen, List.flatten_cons, ih]

theorem ne_nil_of_mem_pieces {n : Nat} (hn : 0 < n) {payload c : List Byte} (hc : c ∈ pieces n payload) : c ≠ [] := by
  induction payload using pieces_induction hn with
  | nil => simp [pieces_nil hn] at hc
  | short a hne hlt =>
    rw [pieces_short a hne hlt.le, List.mem_singleton] at hc
    rwa [hc]
  | whole a b hlen ih =>
    rw [pieces_append hn a b hlen, List.mem_cons] at hc
    rcases hc with rfl | hc
    · exact List.ne_nil_of_length_pos (by omega)
    · exact ih hc

theorem length_of_mem_dropLast_pieces {n : Nat} (hn : 0 < n) {payload c : List Byte}
    (hc : c ∈ (pieces n payload).dropLast) : c.length = n := by
  induction payload using pieces_induction hn with
  | nil => simp [pieces_nil hn] at hc
  | short a hne hlt => simp [pieces_short a hne hlt.le] at hc
  | whole a b hlen ih =>
    rw [pieces_append hn a b hlen] at hc
    rcases List.mem_cons.1 (List.mem_of_mem_dropLast hc) with rfl | hmem
    · exact hlen
    · rw [List.dropLast_cons_of_ne_nil (List.ne_nil_of_mem hmem), List.mem_cons] at hc
      exact hc.elim (fun h => h ▸ hlen) ih

/-- Settles O45: the facts about pieces, for pieces of 32 bytes. -/
theorem chunksPartitionThePayload : Obligations.ChunksPartitionThePayload := fun payload =>
  ⟨flatten_pieces (by decide) payload, length_pieces 32 payload,
    fun _ hc => ⟨List.length_pos_iff.2 (ne_nil_of_mem_pieces (by decide) hc), length_of_mem_pieces hc⟩,
    fun _ hc => length_of_mem_dropLast_pieces (by decide) hc⟩

/-! ### The counters -/

theorem toNat_add_ofNat (c : Counter) (n : Nat) : (c + BitVec.ofNat 64 n).toNat = (c.toNat + n) % 2 ^ 64 := by
  rw [BitVec.toNat_add, BitVec.toNat_ofNat, Nat.add_mod_mod]

theorem absorbPayload_bc (payload : List Byte) (s : State) :
    (absorbPayload payload s).bc = s.bc + BitVec.ofNat 64 payload.length := by
  induction payload using pieces_induction (by decide : 0 < 32) generalizing s with
  | nil => simp [absorbPayload_nil]
  | short a hne hlt => rw [absorbPayload_short hne hlt.le, absorbBlock_bc]
  | whole a b hlen ih =>
    rw [absorbPayload_append hlen, ih, absorbBlock_bc, List.length_append, hlen, BitVec.ofNat_add, BitVec.add_assoc]

theorem absorbPayload_nc (payload : List Byte) (s : State) :
    (absorbPayload payload s).nc = s.nc + BitVec.ofNat 64 ((payload.length + 31) / 32) := by
  induction payload using pieces_induction (by decide : 0 < 32) generalizing s with
  | nil => simp [absorbPayload_nil]
  | short a hne hlt =>
    have hpos := List.length_pos_iff.2 hne
    rw [absorbPayload_short hne hlt.le, absorbBlock_nc, (by omega : (a.length + 31) / 32 = 1)]
    rfl
  | whole a b hlen ih =>
    have hcount : ((a ++ b).length + 31) / 32 = 1 + (b.length + 31) / 32 := by
      rw [List.length_append]
      omega
    rw [absorbPayload_append hlen, ih, absorbBlock_nc, hcount, BitVec.ofNat_add, ← BitVec.add_assoc]
    rfl

theorem absorbPayload_init (payload : List Byte) (s : State) :
    (absorbPayload payload s).init = true ↔ s.init = true ∨ payload ≠ [] := by
  induction payload using pieces_induction (by decide : 0 < 32) generalizing s with
  | nil => simp [absorbPayload_nil]
  | short a hne hlt => simp [absorbPayload_short hne hlt.le, hne]
  | whole a b hlen ih =>
    have hne : a ≠ [] := List.ne_nil_of_length_pos (by omega)
    simp [absorbPayload_append hlen, ih, hne]

/-- Settles O47: the three elements, chunk by chunk. -/
theorem absorbingAPayloadCountsBytesAndBlocks : Obligations.AbsorbingAPayloadCountsBytesAndBlocks := by
  intro s payload
  rw [absorbPayload_bc, absorbPayload_nc]
  exact ⟨toNat_add_ofNat .., toNat_add_ofNat .., absorbPayload_init payload s⟩

/-! ### Payloads one after another -/

/-- Settles O48: the chunks of the first payload are whole. -/
theorem splitAtMultiplesOf32IsOneUpdate : Obligations.SplitAtMultiplesOf32IsOneUpdate := fun s _ b2 h =>
  (absorbPayload_append_of_chunks h b2 s).symm

/-- Settles O49: already the first words of the two HashStates differ. -/
theorem splitElsewhereChangesTheHash : Obligations.SplitElsewhereChangesTheHash := by
  intro h
  exact absurd (congrArg (fun x : Block => x[0]) h) (by decide +kernel)

/-! ### Packets -/

/-- Settles O46: `run_update`. -/
theorem updatePacketAbsorbsItsPayload : Obligations.UpdatePacketAbsorbsItsPayload := by
  intro s payload ds rest hph hroom hlt hlen hpayload hin
  obtain ⟨t, hrun, ht⟩ := run_update hph hroom hlt hlen hpayload hin
  exact ⟨t, hrun, ht.session, ht.ph, ht.rq, ht.err, ht.errcode, ht.inp⟩

/-- START and an UPDATE leave the session that absorbing the payload after reset leaves. -/
theorem run_start_update {s : State} {payload : List Byte} {rest : List HostMove} (hph : s.ph = .hdr)
    (hroom : s.TakesWords) (hlt : payload.length < 2 ^ 24)
    (hin : s.inp = sends (encode .start :: updatePacket payload) rest) :
    ∃ t, run (encode .start :: updatePacket payload).length s = .next t ∧
      s.LeadsTo (absorbPayload payload State.reset).session rest t := by
  rw [← List.singleton_append] at hin ⊢
  rw [sends_append] at hin
  obtain ⟨u, hstart, hu⟩ := run_start hph hroom hin
  have hroom' : u.TakesWords := by rw [State.TakesWords, hu.rq]; exact hroom
  obtain ⟨t, hrun, ht⟩ := run_updatePackets (bs := [payload]) hu.ph hroom' (by simpa using hlt) hu.session
    (by simpa using hu.inp)
  rw [List.flatMap_singleton] at hrun
  refine ⟨t, ?_, hu.trans ht⟩
  rw [List.length_append, List.length_singleton, run_add _ hstart, hrun]

/-- Settles O51: both runs leave the session of the payload absorbed after reset. -/
theorem startThenUpdateIsIndependentOfThePast : Obligations.StartThenUpdateIsIndependentOfThePast := by
  intro s payload rest hph hroom hlt ws
  obtain ⟨t, hrun, ht⟩ := run_start_update (s := { s with inp := sends ws rest }) hph hroom hlt rfl
  obtain ⟨u, hrun', hu⟩ := run_start_update (s := { State.reset with inp := sends ws rest }) rfl rfl hlt rfl
  exact ⟨t, u, hrun, hrun', ht.session.trans hu.session.symm⟩

end Sys2Proof.Machine
end

section
/-! PROOFS. AbsorbBlock (41_block_absorb.md R65 to R79): the PermutationInput word by word, what a chunk and a list of chunks
do to the session, and that the high halves of the two counters are never observed. -/

namespace Sys2Proof.Machine

/-! ### The PermutationInput -/

/-- IN[0..3], the constant words (R66). -/
def sigma : Vector Word 4 := #v[0x61707865, 0x3320646e, 0x79622d32, 0x6b206574]

section words
variable (buf : Chunk) (len : Nat) (bc nc : Counter)

theorem formatBlock_constant (k : Fin 4) : (formatBlock buf len bc nc)[k.val] = sigma[k] := by
  match k with
  | 0 | 1 | 2 | 3 => rfl

theorem formatBlock_payload (k : Fin 8) : (formatBlock buf len bc nc)[4 + k.val] = payloadWord buf len k := by
  match k with
  | 0 | 1 | 2 | 3 | 4 | 5 | 6 | 7 => rfl

theorem formatBlock_byteCounter : (formatBlock buf len bc nc)[12] = bc.setWidth 32 := rfl

theorem formatBlock_blockNonce : (formatBlock buf len bc nc)[14] = nc.setWidth 32 := rfl

/-- Byte lane `m` of IN[4+k] is byte 4k+m of the padded chunk (R67). -/
theorem lane_payloadWord (k : Fin 8) (m : Fin 4) :
    lane (payloadWord buf len k) m.val = paddedByte buf len ⟨4 * k.val + m.val, by omega⟩ := by
  match m with
  | 0 => exact lane_wordOfLanes_zero ..
  | 1 => exact lane_wordOfLanes_one ..
  | 2 => exact lane_wordOfLanes_two ..
  | 3 => exact lane_wordOfLanes_three ..

theorem toNat_paddedByte (i : Fin 32) :
    (paddedByte buf len i).toNat = if i.val < len then buf[i].toNat else 0 := by
  unfold paddedByte
  split <;> rfl

end words

/-- The four constant words hold the text of R66. -/
theorem sigma_text (j : Fin 16) :
    (sigma[j.val / 4]'(by omega)).toNat / 256 ^ (j.val % 4) % 256
      = ("expand 32-byte k".toList.getD j.val ' ').toNat := by
  revert j
  decide

/-- Settles O39: the words are read one by one, the payload words lane by lane. -/
theorem formattedBlockHoldsConstantChunkAndCounters : Obligations.FormattedBlockHoldsConstantChunkAndCounters := by
  intro buf len bc nc
  refine ⟨fun j => ?constant, fun j => ?payload, ?_, rfl, ?_, rfl⟩
  case constant =>
    have hword := formatBlock_constant buf len bc nc ⟨j.val / 4, by omega⟩
    rw [hword]
    exact sigma_text j
  case payload =>
    have hword := formatBlock_payload buf len bc nc ⟨j.val / 4, by omega⟩
    have hlane := lane_payloadWord buf len ⟨j.val / 4, by omega⟩ ⟨j.val % 4, by omega⟩
    have hj : 4 * (j.val / 4) + j.val % 4 = j.val := by omega
    rw [hword, ← toNat_lane, hlane, toNat_paddedByte]
    simp only [hj, Fin.eta]
  · rw [formatBlock_byteCounter, BitVec.toNat_setWidth]
  · rw [formatBlock_blockNonce, BitVec.toNat_setWidth]

/-- Two chunks whose padded bytes are the same give blocks that differ in word 12 at most. -/
theorem formatBlock_set_byteCounter {buf buf' : Chunk} {len len' : Nat}
    (hbytes : ∀ i, paddedByte buf' len' i = paddedByte buf len i) (bc bc' nc : Counter) :
    formatBlock buf' len' bc' nc = (formatBlock buf len bc nc).set 12 (bc'.setWidth 32) := by
  simp only [formatBlock, payloadWord, hbytes]
  rfl

/-- Zero bytes added to a chunk are the bytes it is padded with (R77). -/
theorem paddedByte_zeros_added {buf buf' : Chunk} {len k : Nat} (hsame : ∀ i : Fin 32, i.val < len → buf'[i] = buf[i])
    (hzero : ∀ i : Fin 32, len ≤ i.val → i.val < len + k → buf'[i] = 0) (i : Fin 32) :
    paddedByte buf' (len + k) i = paddedByte buf len i := by
  unfold paddedByte
  by_cases hold : i.val < len
  · rw [if_pos hold, if_pos (by omega), hsame i hold]
  · rw [if_neg hold]
    split
    · next hadded => exact hzero i (by omega) hadded
    · rfl

/-- The low half of a counter changes when less than 2^32 is added to it. -/
theorem setWidth_add_ofNat_ne (c : Counter) {n m : Nat} (hlt : n < m) (hm : m < n + 2 ^ 32) :
    (c + BitVec.ofNat 64 n).setWidth 32 ≠ (c + BitVec.ofNat 64 m).setWidth 32 := by
  intro heq
  have hnat := congrArg BitVec.toNat heq
  simp only [BitVec.toNat_setWidth, toNat_add_ofNat] at hnat
  omega

/-- Settles O44: the padded bytes are the same, the byte counts are not. -/
theorem paddingIsTheSameButTheByteCountIsNot : Obligations.PaddingIsTheSameButTheByteCountIsNot := by
  intro buf buf' len k bc nc hk hroom hsame hzero x y
  have hy : y = x.set 12 ((bc + BitVec.ofNat 64 (len + k)).setWidth 32) :=
    formatBlock_set_byteCounter (paddedByte_zeros_added hsame hzero) ..
  refine ⟨fun i hi => ?_, setWidth_add_ofNat_ne bc (by omega) (by omega)⟩
  rw [hy]
  exact (Vector.getElem_set_ne _ _ hi.symm).symm

/-! ### One chunk -/

theorem accumulate_getElem (init : Bool) (h p : Block) (i : Fin 16) :
    (accumulate init h p)[i] = if init then h[i] ^^^ p[i] else p[i] := by
  cases init <;> simp [accumulate, xorBlock]

/-- Settles O40: the counters as numbers, the accumulator word by word. -/
theorem absorbingAChunkUpdatesTheSession : Obligations.AbsorbingAChunkUpdatesTheSession := by
  intro s buf len _ _
  exact ⟨_, _, _, rfl, toNat_add_ofNat s.bc len, toNat_add_ofNat s.nc 1, accumulate_getElem s.init s.h _⟩

/-- Settles O42: where INIT = 0 the output is folded into 0. -/
theorem assigningAndFoldingTheFirstOutputAgree : Obligations.AssigningAndFoldingTheFirstOutputAgree := by
  intro s buf len hzero i
  rw [absorbBlock_h, accumulate_getElem]
  split
  · rfl
  · next hinit =>
    rw [hzero (by simpa using hinit) i]
    exact BitVec.zero_xor.symm

/-! ### Chunks one after another -/

/-- The chunks, each with its length, absorbed one after another. -/
def absorbBlocks (cs : List (Chunk × Nat)) (s : State) : State := cs.foldl (fun u c => absorbBlock c.1 c.2 u) s

/-- The permutation output with which AbsorbBlock changes H (R65). -/
def blockOutput (c : Chunk × Nat) (s : State) : Block :=
  chachaPerm (formatBlock c.1 c.2 (s.bc + BitVec.ofNat 64 c.2) s.nc)

/-- The permutation outputs of chunks absorbed one after another. -/
def blockOutputs : List (Chunk × Nat) → State → List Block
  | [], _ => []
  | c :: cs, s => blockOutput c s :: blockOutputs cs (absorbBlock c.1 c.2 s)

theorem absorbBlocks_cons (c : Chunk × Nat) (cs : List (Chunk × Nat)) (s : State) :
    absorbBlocks (c :: cs) s = absorbBlocks cs (absorbBlock c.1 c.2 s) := rfl

/-- The count of one more, added in two steps. -/
theorem add_one_add_ofNat (c : Counter) (n : Nat) : c + 1 + BitVec.ofNat 64 n = c + BitVec.ofNat 64 (n + 1) := by
  rw [Nat.add_comm n 1, BitVec.ofNat_add, ← BitVec.add_assoc]
  rfl

theorem absorbBlocks_nc (cs : List (Chunk × Nat)) (s : State) :
    (absorbBlocks cs s).nc = s.nc + BitVec.ofNat 64 cs.length := by
  induction cs generalizing s with
  | nil => exact (BitVec.add_zero s.nc).symm
  | cons c cs ih => rw [absorbBlocks_cons, ih, absorbBlock_nc, add_one_add_ofNat, List.length_cons]

theorem length_blockOutputs (cs : List (Chunk × Nat)) (s : State) : (blockOutputs cs s).length = cs.length := by
  induction cs generalizing s with
  | nil => rfl
  | cons c cs ih => rw [blockOutputs, List.length_cons, List.length_cons, ih]

/-- Output `j` is that of the block whose word 12 counts the bytes of the chunks up to and including chunk `j`, and whose
word 14 counts the chunks before it (R69, R71). -/
theorem blockOutputs_getElem? {cs : List (Chunk × Nat)} {c : Chunk × Nat} {j : Nat} (hc : cs[j]? = some c) (s : State) :
    (blockOutputs cs s)[j]? = some (chachaPerm (formatBlock c.1 c.2
      (s.bc + BitVec.ofNat 64 ((cs.take (j + 1)).map Prod.snd).sum) (s.nc + BitVec.ofNat 64 j))) := by
  induction cs generalizing s j with
  | nil => cases hc
  | cons d cs ih =>
    cases j with
    | zero =>
      cases hc
      simp [blockOutputs, blockOutput]
    | succ j =>
      rw [List.getElem?_cons_succ] at hc
      rw [blockOutputs, List.getElem?_cons_succ, ih hc, absorbBlock_bc, absorbBlock_nc, add_one_add_ofNat, BitVec.add_assoc,
        ← BitVec.ofNat_add, List.take_succ_cons, List.map_cons, List.sum_cons]

/-- With INIT = 1 every output is folded in (R75). -/
theorem absorbBlocks_h {s : State} (hinit : s.init = true) (cs : List (Chunk × Nat)) (i : Fin 16) :
    (absorbBlocks cs s).h[i] = (blockOutputs cs s).foldl (fun x p => x ^^^ p[i]) s.h[i] := by
  induction cs generalizing s with
  | nil => rfl
  | cons c cs ih =>
    have hfirst : (absorbBlock c.1 c.2 s).h[i] = s.h[i] ^^^ (blockOutput c s)[i] := by
      rw [absorbBlock_h, accumulate_getElem, if_pos hinit]
      rfl
    rw [absorbBlocks_cons, ih (absorbBlock_init ..), hfirst]
    rfl

/-- Settles O41: the first output is assigned, the later ones are folded in. -/
theorem hashIsTheXorOfTheOutputs : Obligations.HashIsTheXorOfTheOutputs := by
  intro s cs hinit hne
  refine ⟨blockOutputs cs s, length_blockOutputs cs s, fun j c hc => blockOutputs_getElem? hc s, fun i => ?_⟩
  obtain ⟨c, cs, rfl⟩ := List.exists_cons_of_ne_nil hne
  have hfirst : (absorbBlock c.1 c.2 s).h[i] = 0 ^^^ (blockOutput c s)[i] := by
    rw [absorbBlock_h, accumulate_getElem, if_neg (by simp [hinit])]
    exact BitVec.zero_xor.symm
  calc (absorbBlocks (c :: cs) s).h[i]
      = (blockOutputs cs (absorbBlock c.1 c.2 s)).foldl (fun x p => x ^^^ p[i]) (absorbBlock c.1 c.2 s).h[i] :=
        absorbBlocks_h (absorbBlock_init ..) cs i
    _ = (blockOutputs (c :: cs) s).foldl (fun x p => x ^^^ p[i]) 0 := by rw [hfirst]; rfl

/-- Settles O43: the two blocks differ in word 14. -/
theorem blocksOfASessionHaveDifferentInputs : Obligations.BlocksOfASessionHaveDifferentInputs := by
  intro s cs buf buf' len len' bc bc' hlt hne heq
  have hpos := List.length_pos_iff.2 hne
  have hnonce : s.nc.setWidth 32 = (absorbBlocks cs s).nc.setWidth 32 := congrArg (fun x : Block => x[14]) heq
  rw [absorbBlocks_nc] at hnonce
  refine setWidth_add_ofNat_ne s.nc hpos (by omega) ?_
  rw [← hnonce]
  exact congrArg (BitVec.setWidth 32) (BitVec.add_zero s.nc)

/-! ### The high halves of the counters -/

/-- `s` with other counters. -/
def withCounters (bc nc : Counter) (s : State) : State := { s with bc := bc, nc := nc }

/-- `s'` differs from `s` in the high halves of BC and NC at most. -/
def State.SameLowHalves (s s' : State) : Prop :=
  ∃ bc nc, s' = withCounters bc nc s ∧ bc.setWidth 32 = s.bc.setWidth 32 ∧ nc.setWidth 32 = s.nc.setWidth 32

theorem State.SameLowHalves.symm {s s' : State} (h : s.SameLowHalves s') : s'.SameLowHalves s := by
  obtain ⟨bc, nc, rfl, hbc, hnc⟩ := h
  exact ⟨s.bc, s.nc, rfl, hbc.symm, hnc.symm⟩

theorem State.SameLowHalves.ite {s s' t t' : State} (h : s.SameLowHalves s') (h' : t.SameLowHalves t') (p : Prop)
    [Decidable p] : (if p then s else t).SameLowHalves (if p then s' else t') := by
  split
  · exact h
  · exact h'

/-- What does not read the counters is the same in both states. -/
theorem State.SameLowHalves.same {α : Type} {s s' : State} (h : s.SameLowHalves s') (f : State → α)
    (hf : ∀ bc nc u, f (withCounters bc nc u) = f u) : f s' = f s := by
  obtain ⟨bc, nc, rfl, -⟩ := h
  exact hf bc nc s

/-- An operation that neither reads nor writes the counters keeps the relation. -/
theorem State.SameLowHalves.map {s s' : State} (h : s.SameLowHalves s') (f : State → State)
    (hf : ∀ bc nc u, f (withCounters bc nc u) = withCounters bc nc (f u)) : (f s).SameLowHalves (f s') := by
  obtain ⟨bc, nc, rfl, hbc, hnc⟩ := h
  have hs : f s = withCounters s.bc s.nc (f s) := hf s.bc s.nc s
  have hfbc : (f s).bc = s.bc := by rw [hs]; rfl
  have hfnc : (f s).nc = s.nc := by rw [hs]; rfl
  exact ⟨bc, nc, hf bc nc s, by rw [hfbc, hbc], by rw [hfnc, hnc]⟩

section lowHalves
variable {s s' : State} (h : s.SameLowHalves s')
include h

theorem clearSession_sameLowHalves : (clearSession s).SameLowHalves (clearSession s') := by
  obtain ⟨bc, nc, rfl, -⟩ := h
  exact ⟨0, 0, rfl, rfl, rfl⟩

theorem resetEngine_sameLowHalves : (resetEngine s).SameLowHalves (resetEngine s') := by
  obtain ⟨bc, nc, rfl, -⟩ := h
  exact ⟨0, 0, rfl, rfl, rfl⟩

theorem raiseCmdError_sameLowHalves (c : CmdError) : (raiseCmdError c s).SameLowHalves (raiseCmdError c s') :=
  h.map (raiseCmdError c) fun _ _ _ => by
    simp only [raiseCmdError_eq]
    rfl

theorem badHeader_sameLowHalves (w : Word) (c : CmdError) : (badHeader w c s).SameLowHalves (badHeader w c s') :=
  have hraised := raiseCmdError_sameLowHalves h c
  (hraised.map (beginPayload (lenOf w) true) fun _ _ _ => rfl).ite hraised _

/-- Only the low halves enter the block (R69, R71), and the low half of a sum depends on the low halves alone (R76). -/
theorem absorbBlock_sameLowHalves (buf : Chunk) (len : Nat) :
    (absorbBlock buf len s).SameLowHalves (absorbBlock buf len s') := by
  obtain ⟨bc, nc, rfl, hbc, hnc⟩ := h
  have hadd {c c' : Counter} (hc : c'.setWidth 32 = c.setWidth 32) (n : Counter) :
      (c' + n).setWidth 32 = (c + n).setWidth 32 := by
    rw [BitVec.setWidth_add _ _ (by decide), BitVec.setWidth_add _ _ (by decide), hc]
  have hblock : formatBlock buf len (bc + BitVec.ofNat 64 len) nc
      = formatBlock buf len (s.bc + BitVec.ofNat 64 len) s.nc := by
    rw [formatBlock, hadd hbc, hnc, ← formatBlock]
  refine ⟨bc + BitVec.ofNat 64 len, nc + 1, ?_, hadd hbc _, hadd hnc 1⟩
  simp only [absorbBlock, withCounters, hblock]

theorem absorbStaged_sameLowHalves (len : Nat) : (absorbStaged len s).SameLowHalves (absorbStaged len s') := by
  have hsb := h.same State.sb fun _ _ _ => rfl
  rw [absorbStaged_eq_withStaging, absorbStaged_eq_withStaging, hsb]
  exact (absorbBlock_sameLowHalves h s.sb len).map (withStaging s.sb 0) fun _ _ _ => rfl

theorem takeByte_sameLowHalves (b : Byte) : (takeByte s b).SameLowHalves (takeByte s' b) := by
  have hstaged := h.map (stageByte b) fun _ _ _ => rfl
  have hfull := absorbStaged_sameLowHalves hstaged 32
  have hdisc := h.same State.disc fun _ _ _ => rfl
  have hsbn := hstaged.same State.sbn fun _ _ _ => rfl
  rw [takeByte, takeByte, hdisc, hsbn]
  exact h.ite (hfull.ite hstaged _) _

theorem absorbLast_sameLowHalves : (absorbLast s).SameLowHalves (absorbLast s') := by
  have hlast := absorbStaged_sameLowHalves h s.sbn.toNat
  have hdisc := h.same State.disc fun _ _ _ => rfl
  have hsbn := h.same State.sbn fun _ _ _ => rfl
  rw [absorbLast, absorbLast, hdisc, hsbn]
  exact hlast.ite h _

theorem endPayload_sameLowHalves : (endPayload s).SameLowHalves (endPayload s') :=
  (absorbLast_sameLowHalves h).map (fun u => { u with ph := .hdr, disc := false }) fun _ _ _ => rfl

end lowHalves

theorem takeBytes_sameLowHalves {s s' : State} (h : s.SameLowHalves s') (bs : List Byte) :
    (bs.foldl takeByte s).SameLowHalves (bs.foldl takeByte s') := by
  induction bs generalizing s s' with
  | nil => exact h
  | cons b bs ih => exact ih (takeByte_sameLowHalves h b)

theorem dataWord_sameLowHalves {s s' : State} (h : s.SameLowHalves s') (w : Word) :
    (dataWord w s).SameLowHalves (dataWord w s') := by
  have hcounted := (takeBytes_sameLowHalves h (payloadBytes w s.rem)).map countLanes fun _ _ _ => rfl
  have hrem := h.same State.rem fun _ _ _ => rfl
  rw [dataWord_eq, dataWord_eq, hrem]
  exact (endPayload_sameLowHalves hcounted).ite hcounted _

theorem exec_sameLowHalves {i : Instr} {s s' t : State} (h : s.SameLowHalves s') (he : exec i s = .next t) :
    ∃ t', exec i s' = .next t' ∧ t.SameLowHalves t' := by
  cases i with
  | nop => cases he; exact ⟨_, rfl, h⟩
  | start => cases he; exact ⟨_, rfl, clearSession_sameLowHalves h⟩
  | update len =>
    by_cases hlen : len = 0
    · rw [show exec (.update len) s = .next s from if_pos hlen] at he
      cases he
      exact ⟨_, if_pos hlen, h⟩
    · rw [show exec (.update len) s = .next (beginPayload len false s) from if_neg hlen] at he
      cases he
      exact ⟨_, if_neg hlen, h.map (beginPayload len false) fun _ _ _ => rfl⟩
  | rddig => cases he; exact ⟨_, rfl, h.map (fun u => rspWrite u.h.toList u) fun _ _ _ => rfl⟩
  | rdhex => cases he; exact ⟨_, rfl, h.map (fun u => rspWrite (hexWords u.h) u) fun _ _ _ => rfl⟩
  | rdstat => cases he; exact ⟨_, rfl, h.map (fun u => rspWrite [statusWord u] u) fun _ _ _ => rfl⟩
  | reserved67 | reserved8F => cases he; exact ⟨_, rfl, raiseCmdError_sameLowHalves h _⟩

theorem engineStep_sameLowHalves {w : Word} {s s' t : State} (h : s.SameLowHalves s') (hst : engineStep w s = .next t) :
    ∃ t', engineStep w s' = .next t' ∧ t.SameLowHalves t' := by
  have hphase := h.same State.ph fun _ _ _ => rfl
  have hdisc := h.same State.disc fun _ _ _ => rfl
  have hsbn := h.same State.sbn fun _ _ _ => rfl
  rcases engineStep_next_cases hst with ⟨hph, i, hdec, he⟩ | ⟨hph, c, hdec, rfl⟩ | ⟨hph, hroom, rfl⟩
  · obtain ⟨t', he', ht⟩ := exec_sameLowHalves h he
    exact ⟨t', (engineStep_command (hphase.trans hph) hdec).trans he', ht⟩
  · exact ⟨_, engineStep_malformed (hphase.trans hph) hdec, badHeader_sameLowHalves h w c⟩
  · exact ⟨_, engineStep_data (hphase.trans hph) (by rwa [hdisc, hsbn]), dataWord_sameLowHalves h w⟩

theorem step_sameLowHalves {s s' t : State} (h : s.SameLowHalves s') (hst : step s = .next t) :
    ∃ t', step s' = .next t' ∧ t.SameLowHalves t' := by
  have hinp := h.same State.inp fun _ _ _ => rfl
  have hrq := h.same State.rq fun _ _ _ => rfl
  have htaken (rest : List HostMove) := h.map (takeMove rest) fun _ _ _ => rfl
  rcases step_next_cases hst with ⟨rest, hin, rfl⟩ | ⟨rest, hin, hne, rfl⟩ | ⟨w, rest, hin, hroom, heng⟩
  · exact ⟨_, step_reset (hinp.trans hin), resetEngine_sameLowHalves (htaken rest)⟩
  · exact ⟨_, step_accept (hinp.trans hin) (hrq ▸ hne), (htaken rest).map dropResponse fun _ _ _ => rfl⟩
  · obtain ⟨t', heng', ht⟩ := engineStep_sameLowHalves (htaken rest) heng
    exact ⟨t', (step_word (hinp.trans hin) (hrq ▸ hroom)).trans heng', ht⟩

/-- A run whose first step does not take place observes nothing. -/
theorem observed_stops {s : State} (hst : ∀ t, step s ≠ .next t) (k : Nat) : observed k s = [] := by
  cases k with
  | zero => rfl
  | succ k =>
    unfold observed
    split
    · next t e => exact absurd e (hst t)
    · rfl
    · rfl

theorem observed_sameLowHalves (k : Nat) {s s' : State} (h : s.SameLowHalves s') : observed k s' = observed k s := by
  induction k generalizing s s' with
  | zero => rfl
  | succ k ih =>
    by_cases hnext : ∃ t, step s = .next t
    · obtain ⟨t, hst⟩ := hnext
      obtain ⟨t', hst', ht⟩ := step_sameLowHalves h hst
      have hemitted := h.same State.emitted fun _ _ _ => rfl
      rw [observed_succ k hst, observed_succ k hst', hemitted, ih ht]
    · have hstop' : ∀ t', step s' ≠ .next t' := fun t' hst' =>
        hnext ((step_sameLowHalves h.symm hst').imp fun _ => And.left)
      rw [observed_stops (not_exists.1 hnext), observed_stops hstop']

theorem setWidth_eq_of_mod_eq {c c' : Counter} (h : c'.toNat % 2 ^ 32 = c.toNat % 2 ^ 32) :
    c'.setWidth 32 = c.setWidth 32 := by
  apply BitVec.eq_of_toNat_eq
  rwa [BitVec.toNat_setWidth, BitVec.toNat_setWidth]

/-- Settles O28: every step keeps the low halves the same and emits the same response. -/
theorem highCounterHalvesAreNeverObserved : Obligations.HighCounterHalvesAreNeverObserved := by
  intro s bc' nc' hbc hnc k
  exact observed_sameLowHalves k ⟨bc', nc', rfl, setWidth_eq_of_mod_eq hbc, setWidth_eq_of_mod_eq hnc⟩

end Sys2Proof.Machine
end

section
/-! PROOFS. The digest reads (42_digest_readout.md R80 to R85): the two commands, the characters of the digest text, and
that the text determines HashState. -/

namespace Sys2Proof.Machine

/-! ### The reads -/

/-- Settles O33: the words are those of H. -/
theorem rddigAnswersTheHashWords : Obligations.RddigAnswersTheHashWords :=
  ⟨rfl, fun s => ⟨s.h.toList, rfl, Vector.length_toList, fun i => by simp⟩⟩

theorem length_hexWords (h : Block) : (hexWords h).length = 32 := by
  simp [hexWords]

theorem hexWords_getElem? (h : Block) (m : Fin 32) : (hexWords h)[m.val]? = some (hexWord h m) := by
  simp [hexWords]

/-! ### The characters -/

theorem toNat_hexChar (v : BitVec 4) :
    (hexChar v).toNat = if v.toNat < 10 then 0x30 + v.toNat else 0x61 + (v.toNat - 10) := by
  revert v
  decide

/-- The digits are above 0x30 and below the letters, so a character names one nibble (R82). -/
theorem hexChar_injective : Function.Injective hexChar := by
  intro v v' heq
  have hnat := congrArg BitVec.toNat heq
  rw [toNat_hexChar, toNat_hexChar] at hnat
  apply BitVec.eq_of_toNat_eq
  split at hnat <;> split at hnat <;> omega

/-- Bits 31-4k to 28-4k of a word are its nibble 7-k. -/
theorem toNat_nibble (w : Word) {k : Nat} (hk : k < 8) :
    (w.extractLsb' (28 - 4 * k) 4).toNat = w.toNat / 16 ^ (7 - k) % 16 := by
  rw [BitVec.extractLsb'_toNat, Nat.shiftRight_eq_div_pow, show 28 - 4 * k = 4 * (7 - k) by omega, Nat.pow_mul]

/-- Bit `b` of a word is bit `b mod 4` of its nibble `b div 4`. -/
theorem word_eq_of_nibbles_eq {w w' : Word}
    (hnibbles : ∀ k, k < 8 → w.extractLsb' (28 - 4 * k) 4 = w'.extractLsb' (28 - 4 * k) 4) : w = w' := by
  apply BitVec.eq_of_getLsbD_eq
  intro b hb
  have hbit := congrArg (fun v => v.getLsbD (b % 4)) (hnibbles (7 - b / 4) (by omega))
  have hindex : 28 - 4 * (7 - b / 4) + b % 4 = b := by omega
  simpa [hindex, Nat.mod_lt] using hbit

/-- Lane `j` of response word `m` is character 4m+j (R83). -/
theorem lane_hexWord (h : Block) (m : Fin 32) (j : Fin 4) :
    lane (hexWord h m) j.val = digestChar h ⟨4 * m.val + j.val, by omega⟩ := by
  match j with
  | 0 => exact lane_wordOfLanes_zero ..
  | 1 => exact lane_wordOfLanes_one ..
  | 2 => exact lane_wordOfLanes_two ..
  | 3 => exact lane_wordOfLanes_three ..

/-- Settles O34: a lane is a character, and a character is that of its nibble. -/
theorem rdhexAnswersTheDigestText : Obligations.RdhexAnswersTheDigestText := by
  refine ⟨rfl, fun s => ⟨hexWords s.h, rfl, length_hexWords s.h, fun t => ?_⟩⟩
  let m : Fin 32 := ⟨t.val / 4, by omega⟩
  let j : Fin 4 := ⟨t.val % 4, by omega⟩
  refine ⟨hexWord s.h m, hexWords_getElem? s.h m, ?_⟩
  have hchar : lane (hexWord s.h m) j.val = digestChar s.h t :=
    (lane_hexWord s.h m j).trans (congrArg (digestChar s.h) (Fin.ext (Nat.div_add_mod t.val 4)))
  rw [← toNat_lane, hchar, digestChar, toNat_hexChar, toNat_nibble _ (by omega)]

/-! ### The text determines HashState -/

theorem digestChar_injective : Function.Injective digestChar := by
  intro h h' heq
  apply Vector.ext
  intro i hi
  apply word_eq_of_nibbles_eq
  intro k hk
  have hchar := congrFun heq ⟨8 * i + k, by omega⟩
  have hword : (8 * i + k) / 8 = i := by omega
  have hnibble : (8 * i + k) % 8 = k := by omega
  simpa only [digestChar, hword, hnibble] using hexChar_injective hchar

/-- The host unpacks the characters in their order (R85). -/
theorem unpackText_hexWords (h : Block) : unpackText (hexWords h) = List.ofFn (digestChar h) := by
  have hlanes (m : Fin 32) : [lane (hexWord h m) 0, lane (hexWord h m) 1, lane (hexWord h m) 2, lane (hexWord h m) 3]
      = List.ofFn fun j : Fin 4 => digestChar h ⟨4 * m.val + j.val, by omega⟩ := by
    simp only [← lane_hexWord]
    rfl
  simp only [unpackText, hexWords, List.flatMap_map, hlanes]
  rw [List.flatMap_def, ← List.ofFn_eq_map]
  exact (List.ofFn_mul' (m := 4) (n := 32) (digestChar h)).symm

/-- Settles O37: equal texts have equal characters. -/
theorem digestTextDeterminesTheHash : Obligations.DigestTextDeterminesTheHash := by
  intro h h'
  rw [unpackText_hexWords, unpackText_hexWords]
  exact ⟨List.length_ofFn, fun heq => digestChar_injective (List.ofFn_injective heq)⟩

end Sys2Proof.Machine
end

section
/-! PROOFS. The permutation core (43_permutation.md R86 to R93): the rotation, the quarter-round, its effect on a block, and
the rounds built of it. A quarter-round is injective because each of its operations is; on a block it writes four different
places and reads only them. -/

namespace Sys2Proof.Machine

/-! ### The rotation -/

/-- R91's formula is the rotation. -/
theorem rotl32_eq_rotateLeft (x : Word) {n : Nat} (hn : n < 32) : rotl32 x n = x.rotateLeft n :=
  (BitVec.rotateLeft_eq_rotateLeftAux_of_lt hn).symm

/-- Settles O53: the bits below 32 - n come from the left shift, the others from the right shift. -/
theorem rotationMovesEveryBit : Obligations.RotationMovesEveryBit := by
  intro x n i _ hn hi
  rw [rotl32_eq_rotateLeft x (by omega), BitVec.getLsbD_rotateLeft, Nat.mod_eq_of_lt (show n < 32 by omega)]
  by_cases hwrap : i + n < 32
  · have hindex : (i + n) % 32 = i + n := Nat.mod_eq_of_lt hwrap
    simp [hindex, hwrap]
  · have hindex : (i + n) % 32 = i + n - 32 := by omega
    have hbelow : i + n - 32 < n := by omega
    have hback : 32 - n + (i + n - 32) = i := by omega
    simp [hindex, hbelow, hback]

theorem rotl32_injective {n : Nat} (hpos : 1 ≤ n) (hn : n ≤ 31) : Function.Injective fun x => rotl32 x n := by
  intro x y heq
  apply BitVec.eq_of_getLsbD_eq
  intro i hi
  rw [← rotationMovesEveryBit x n i hpos hn hi, ← rotationMovesEveryBit y n i hpos hn hi]
  exact congrArg (fun v : Word => v.getLsbD ((i + n) % 32)) heq

/-! ### The quarter-round -/

/-- Settles O54: the equations name the operations' results one by one. -/
theorem quarterRoundIsItsTwelveOperations : Obligations.QuarterRoundIsItsTwelveOperations := by
  rintro a0 b0 c0 d0 _ _ _ _ _ _ _ _ rfl rfl rfl rfl rfl rfl rfl rfl
  simp (disch := decide) only [quarterRound, rotl32_eq_rotateLeft]

/-- Two of the four lines of R90, with the rotations `r` and `r'`. -/
def halfQuarterRound (r r' : Nat) (v : Word × Word × Word × Word) : Word × Word × Word × Word :=
  let (a, b, c, d) := v
  let a := a + b
  let d := rotl32 (d ^^^ a) r
  let c := c + d
  let b := rotl32 (b ^^^ c) r'
  (a, b, c, d)

theorem quarterRound_eq_halves (a b c d : Word) :
    quarterRound a b c d = halfQuarterRound 8 7 (halfQuarterRound 16 12 (a, b, c, d)) := rfl

/-- The operations are undone from the last to the first: each changed one word, by the words beside it. -/
theorem halfQuarterRound_injective {r r' : Nat} (hr : 1 ≤ r ∧ r ≤ 31) (hr' : 1 ≤ r' ∧ r' ≤ 31) :
    Function.Injective (halfQuarterRound r r') := by
  rintro ⟨a, b, c, d⟩ ⟨a', b', c', d'⟩ heq
  simp only [halfQuarterRound, Prod.mk.injEq] at heq
  obtain ⟨ha, hb, hc, hd⟩ := heq
  rw [hc] at hb
  obtain rfl : b = b' := (BitVec.xor_left_inj _).mp (rotl32_injective hr'.1 hr'.2 hb)
  rw [hd] at hc
  obtain rfl : c = c' := add_right_cancel hc
  rw [ha] at hd
  obtain rfl : d = d' := (BitVec.xor_left_inj _).mp (rotl32_injective hr.1 hr.2 hd)
  obtain rfl : a = a' := add_right_cancel ha
  rfl

theorem quarterRound_injective {a b c d a' b' c' d' : Word} (heq : quarterRound a b c d = quarterRound a' b' c' d') :
    (a, b, c, d) = (a', b', c', d') := by
  rw [quarterRound_eq_halves, quarterRound_eq_halves] at heq
  exact halfQuarterRound_injective (by decide) (by decide) (halfQuarterRound_injective (by decide) (by decide) heq)

/-! ### A quarter-round of a block -/

theorem block_ext {x y : Block} (h : ∀ i : Fin 16, x[i] = y[i]) : x = y := Vector.ext fun k hk => h ⟨k, hk⟩

/-- The places a quarter-round works on. -/
def Quad.places (q : Quad) : List (Fin 16) := [q.a, q.b, q.c, q.d]

theorem Quad.mem_places {q : Quad} {i : Fin 16} : i ∈ q.places ↔ i = q.a ∨ i = q.b ∨ i = q.c ∨ i = q.d := by
  simp [Quad.places]

/-- The last of the four writes to a place decides what it holds. -/
theorem quarterRoundAt_getElem (x : Block) (q : Quad) (i : Fin 16) :
    (quarterRoundAt x q)[i] =
      let r := quarterRound x[q.a] x[q.b] x[q.c] x[q.d]
      if q.d = i then r.2.2.2 else if q.c = i then r.2.2.1 else if q.b = i then r.2.1 else if q.a = i then r.1 else x[i] := by
  simp [quarterRoundAt, Vector.getElem_set, Fin.ext_iff]

theorem quarterRoundAt_getElem_of_notMem (x : Block) {q : Quad} {i : Fin 16} (hi : i ∉ q.places) :
    (quarterRoundAt x q)[i] = x[i] := by
  simp only [Quad.mem_places, not_or] at hi
  obtain ⟨ha, hb, hc, hd⟩ := hi
  simp only [quarterRoundAt_getElem, if_neg (Ne.symm ha), if_neg (Ne.symm hb), if_neg (Ne.symm hc), if_neg (Ne.symm hd)]

theorem quarterRoundAt_places (x : Block) {q : Quad} (hq : q.places.Nodup) :
    let y := quarterRoundAt x q
    (y[q.a], y[q.b], y[q.c], y[q.d]) = quarterRound x[q.a] x[q.b] x[q.c] x[q.d] := by
  simp only [Quad.places, List.nodup_cons, List.mem_cons, List.not_mem_nil, not_or, or_false] at hq
  obtain ⟨⟨hab, hac, had⟩, ⟨hbc, hbd⟩, hcd, -⟩ := hq
  simp only [quarterRoundAt_getElem, if_true, if_neg (Ne.symm hab), if_neg (Ne.symm hac), if_neg (Ne.symm had),
    if_neg (Ne.symm hbc), if_neg (Ne.symm hbd), if_neg (Ne.symm hcd)]

/-- What a quarter-round leaves at a place depends only on that place and its four. -/
theorem quarterRoundAt_getElem_congr {x y : Block} {q : Quad} {i : Fin 16} (hplaces : ∀ j ∈ q.places, x[j] = y[j])
    (hi : x[i] = y[i]) : (quarterRoundAt x q)[i] = (quarterRoundAt y q)[i] := by
  simp only [quarterRoundAt_getElem, hi, hplaces q.a (by simp [Quad.places]), hplaces q.b (by simp [Quad.places]),
    hplaces q.c (by simp [Quad.places]), hplaces q.d (by simp [Quad.places])]

theorem quarterRoundAt_injective {q : Quad} (hq : q.places.Nodup) : Function.Injective fun x => quarterRoundAt x q := by
  intro x y heq
  have hfour : quarterRound x[q.a] x[q.b] x[q.c] x[q.d] = quarterRound y[q.a] y[q.b] y[q.c] y[q.d] := by
    rw [← quarterRoundAt_places x hq, ← quarterRoundAt_places y hq]
    exact congrArg (fun z : Block => (z[q.a], z[q.b], z[q.c], z[q.d])) heq
  injection quarterRound_injective hfour with ha hbcd
  injection hbcd with hb hcd
  injection hcd with hc hd
  refine block_ext fun i => ?_
  by_cases hi : i ∈ q.places
  · rcases Quad.mem_places.mp hi with rfl | rfl | rfl | rfl <;> assumption
  · rw [← quarterRoundAt_getElem_of_notMem x hi, ← quarterRoundAt_getElem_of_notMem y hi]
    exact congrArg (fun z : Block => z[i]) heq

theorem places_nodup : ∀ q ∈ columnQuads ++ diagonalQuads, q.places.Nodup := by decide

/-- Settles O55: the four places of each tuple are different. -/
theorem quarterRoundTouchesOnlyItsFourWords : Obligations.QuarterRoundTouchesOnlyItsFourWords := by
  intro x q hq
  refine ⟨quarterRoundAt_places x (places_nodup q hq), fun i ha hb hc hd => quarterRoundAt_getElem_of_notMem x ?_⟩
  simp only [Quad.mem_places, not_or]
  exact ⟨ha, hb, hc, hd⟩

/-! ### The order inside a round -/

/-- Off the places of `q'` both orders leave what `q` alone leaves. -/
theorem quarterRoundAt_comm_getElem (x : Block) {q q' : Quad} (hdisj : q.places.Disjoint q'.places) {i : Fin 16}
    (hi : i ∉ q'.places) : (quarterRoundAt (quarterRoundAt x q) q')[i] = (quarterRoundAt (quarterRoundAt x q') q)[i] := by
  calc (quarterRoundAt (quarterRoundAt x q) q')[i]
    _ = (quarterRoundAt x q)[i] := quarterRoundAt_getElem_of_notMem _ hi
    _ = (quarterRoundAt (quarterRoundAt x q') q)[i] :=
      quarterRoundAt_getElem_congr (fun _ hj => (quarterRoundAt_getElem_of_notMem x (hdisj hj)).symm)
        (quarterRoundAt_getElem_of_notMem x hi).symm

/-- Quarter-rounds of different places commute (R92). -/
theorem quarterRoundAt_comm (x : Block) {q q' : Quad} (hdisj : q.places.Disjoint q'.places) :
    quarterRoundAt (quarterRoundAt x q) q' = quarterRoundAt (quarterRoundAt x q') q := by
  refine block_ext fun i => ?_
  by_cases hi : i ∈ q'.places
  · exact (quarterRoundAt_comm_getElem x hdisj.symm (hdisj.symm hi)).symm
  · exact quarterRoundAt_comm_getElem x hdisj hi

theorem foldl_quarterRoundAt_perm {qs qs' : List Quad} (x : Block) (hperm : qs.Perm qs')
    (hdisj : ∀ q ∈ qs', ∀ q' ∈ qs', q = q' ∨ q.places.Disjoint q'.places) :
    qs.foldl quarterRoundAt x = qs'.foldl quarterRoundAt x := by
  refine hperm.foldl_eq' (fun q hq q' hq' y => ?_) x
  rcases hdisj q (hperm.subset hq) q' (hperm.subset hq') with rfl | h
  · rfl
  · exact quarterRoundAt_comm y h

/-- Settles O56: two tuples of one round have no place in common. -/
theorem orderInsideARoundDoesNotMatter : Obligations.OrderInsideARoundDoesNotMatter := fun x _ =>
  ⟨fun hperm => foldl_quarterRoundAt_perm x hperm (by simp only [List.Disjoint]; decide),
    fun hperm => foldl_quarterRoundAt_perm x hperm (by simp only [List.Disjoint]; decide)⟩

/-! ### The rounds are bijections -/

theorem foldl_quarterRoundAt_injective {qs : List Quad} (hqs : ∀ q ∈ qs, q.places.Nodup) :
    Function.Injective fun x => qs.foldl quarterRoundAt x := by
  induction qs with
  | nil => exact fun _ _ heq => heq
  | cons q qs ih =>
    obtain ⟨hq, hqs⟩ := List.forall_mem_cons.mp hqs
    exact (ih hqs).comp (quarterRoundAt_injective hq)

theorem columnRound_injective : Function.Injective columnRound :=
  foldl_quarterRoundAt_injective (qs := columnQuads) fun q hq => places_nodup q (List.mem_append_left _ hq)

theorem diagonalRound_injective : Function.Injective diagonalRound :=
  foldl_quarterRoundAt_injective (qs := diagonalQuads) fun q hq => places_nodup q (List.mem_append_right _ hq)

theorem doubleRound_injective : Function.Injective doubleRound := by
  intro x y heq
  simp only [doubleRound] at heq
  exact columnRound_injective (diagonalRound_injective heq)

theorem finite_block : Finite Block :=
  Finite.of_injective (fun (x : Block) (i : Fin 16) => x[i]) fun _ _ heq => block_ext (congrFun heq)

/-- Settles O57: there are finitely many blocks, so injective is enough. -/
theorem doubleRoundIsABijection : Obligations.DoubleRoundIsABijection :=
  have := finite_block
  Finite.injective_iff_bijective.mp doubleRound_injective

/-! ### The unrolled networks -/

theorem repeatRound_eq_iterate (f : Block → Block) (n : Nat) : repeatRound f n = f^[n] := by
  induction n with
  | zero => rfl
  | succ n ih => rw [Function.iterate_succ, ← ih]; rfl

theorem networkRounds_eq_repeatRound (k n : Nat) (x : Block) : networkRounds k n x = repeatRound doubleRound (k * n) x := by
  simp only [networkRounds, repeatRound_eq_iterate, Function.iterate_mul]

/-- Two layers are one double round (R89). -/
theorem halfStepRounds_eq_repeatRound (n : Nat) (x : Block) : halfStepRounds true (2 * n) x = repeatRound doubleRound n x := by
  induction n generalizing x with
  | zero => rfl
  | succ n ih => exact ih (doubleRound x)

theorem unrolledPerm_eq_chachaPerm (d : UnrollDepth) (input : Block) : unrolledPerm d input = chachaPerm input := by
  unfold chachaPerm
  cases d with
  | half => exact congrArg (feedForward · input) (halfStepRounds_eq_repeatRound 10 input)
  | one => exact congrArg (feedForward · input) (networkRounds_eq_repeatRound 1 10 input)
  | two => exact congrArg (feedForward · input) (networkRounds_eq_repeatRound 2 5 input)
  | five => exact congrArg (feedForward · input) (networkRounds_eq_repeatRound 5 2 input)
  | ten => exact congrArg (feedForward · input) (networkRounds_eq_repeatRound 10 1 input)

/-- Settles O58: at each allowed depth the general laws give ten double rounds. -/
theorem unrolledNetworksComputeTheSameFunction : Obligations.UnrolledNetworksComputeTheSameFunction :=
  ⟨networkRounds_eq_repeatRound, halfStepRounds_eq_repeatRound, unrolledPerm_eq_chachaPerm⟩

/-- Settles O59: both values are computed. -/
theorem permutationVectors : Obligations.PermutationVectors := by
  constructor
  · decide +kernel
  · decide +kernel

end Sys2Proof.Machine
end

section
/-! PROOFS. The error record (60_exceptions.md R95, R96, R99, R103): each operation keeps it, clears it (reset) or raises an
error on it, and an error is raised by the header whose code it is. -/

namespace Sys2Proof.Machine

/-- The error record: ERR and ERRCODE (10_state.md R16). -/
def State.errorRecord (s : State) : Bool × BitVec 4 := (s.err, s.errcode)

theorem errorRecord_eq_iff {s t : State} : t.errorRecord = s.errorRecord ↔ t.err = s.err ∧ t.errcode = s.errcode :=
  Prod.mk_inj

/-- The first error is kept (R96). -/
theorem raiseCmdError_errorRecord_of_err {s : State} (c : CmdError) (herr : s.err = true) :
    (raiseCmdError c s).errorRecord = s.errorRecord := congrArg State.errorRecord (if_pos herr)

/-! ### Which headers raise an error -/

theorem malformed_of_decode_error {h : Word} {c : CmdError} (hd : decode h = .error c) : Malformed h (errorCode c) := by
  rw [decode_eq_checks] at hd
  split_ifs at hd with hop hrsv hlen
  · cases hd
    exact .inr (.inl ⟨not_le.1 hop, hrsv, rfl⟩)
  · cases hd
    exact .inr (.inr ⟨not_le.1 hop, not_not.1 hrsv, hlen.1, hlen.2, rfl⟩)

theorem malformed_of_decode_reserved {h : Word} {i : Instr} (hd : decode h = .ok i)
    (hi : ¬∀ o r l, i ≠ .reserved67 o r l ∧ i ≠ .reserved8F o r l) : Malformed h (errorCode .illegalOpcode) := by
  obtain ⟨-, rfl⟩ := decode_eq_ok_iff.1 hd
  rw [commandOf_ne_reserved_iff, toNat_opOf] at hi
  exact .inl ⟨not_lt.1 hi, rfl⟩

/-! ### The error record, operation by operation -/

/-- A command keeps the error record, or it is a reserved opcode and raises its error. -/
theorem exec_errorRecord {h : Word} {i : Instr} {s t : State} (hd : decode h = .ok i) (he : exec i s = .next t) :
    t.errorRecord = s.errorRecord ∨ (Malformed h (errorCode .illegalOpcode) ∧ t = raiseCmdError .illegalOpcode s) := by
  cases i with
  | nop | start | rddig | rdhex | rdstat => cases he; exact .inl rfl
  | update len =>
    simp only [exec, execUpdate] at he
    split at he
    all_goals cases he; exact .inl rfl
  | reserved67 op rsv len => cases he; exact .inr ⟨malformed_of_decode_reserved hd fun hi => (hi op rsv len).1 rfl, rfl⟩
  | reserved8F op rsv len => cases he; exact .inr ⟨malformed_of_decode_reserved hd fun hi => (hi op rsv len).2 rfl, rfl⟩

theorem badHeader_errorRecord (h : Word) (c : CmdError) (s : State) :
    (badHeader h c s).errorRecord = (raiseCmdError c s).errorRecord := by
  simp [State.errorRecord]

theorem dataWord_errorRecord (w : Word) (s : State) : (dataWord w s).errorRecord = s.errorRecord :=
  errorRecord_eq_iff.2 ⟨dataWord_err .., dataWord_errcode ..⟩

/-- A word keeps the error record, or it is a malformed header and raises its own error. -/
theorem engineStep_errorRecord {w : Word} {s t : State} (hst : engineStep w s = .next t) :
    t.errorRecord = s.errorRecord ∨
    (s.ph = .hdr ∧ ∃ c, Malformed w (errorCode c) ∧ t.errorRecord = (raiseCmdError c s).errorRecord) := by
  rcases engineStep_next_cases hst with ⟨hph, i, hd, he⟩ | ⟨hph, c, hd, rfl⟩ | ⟨-, -, rfl⟩
  · rcases exec_errorRecord hd he with hsame | ⟨hmal, rfl⟩
    · exact .inl hsame
    · exact .inr ⟨hph, .illegalOpcode, hmal, rfl⟩
  · exact .inr ⟨hph, c, malformed_of_decode_error hd, badHeader_errorRecord w c s⟩
  · exact .inl (dataWord_errorRecord w s)

/-! ### The statements -/

/-- Settles O24: reset clears the record, every other move keeps it: an error raised once ERR = 1 changes nothing. -/
theorem errorRecordStaysUntilReset : Obligations.ErrorRecordStaysUntilReset := by
  intro s t hst herr
  rcases step_next_cases hst with ⟨rest, hin, rfl⟩ | ⟨rest, hin, -, rfl⟩ | ⟨w, rest, hin, -, heng⟩
  · rw [if_pos (by rw [hin]; rfl)]
    exact ⟨rfl, rfl⟩
  · rw [if_neg (by simp [hin])]
    exact ⟨herr, rfl⟩
  · rw [if_neg (by simp [hin])]
    have hsame : t.errorRecord = s.errorRecord := by
      rcases engineStep_errorRecord heng with hsame | ⟨-, c, -, hraised⟩
      · exact hsame
      · exact hraised.trans (raiseCmdError_errorRecord_of_err c herr)
    obtain ⟨he, hcode⟩ := errorRecord_eq_iff.1 hsame
    exact ⟨he.trans herr, hcode⟩

/-- Settles O25: of all moves only a malformed header does not keep ERR = 0, and the code it raises is recorded. -/
theorem onlyMalformedHeadersRaiseErrors : Obligations.OnlyMalformedHeadersRaiseErrors := by
  intro s t hst hclear hset
  rcases step_next_cases hst with ⟨rest, -, rfl⟩ | ⟨rest, -, -, rfl⟩ | ⟨w, rest, hin, -, heng⟩
  · cases hset
  · cases hclear.symm.trans hset
  · rcases engineStep_errorRecord heng with hsame | ⟨hph, c, hmal, hraised⟩
    · obtain ⟨he, -⟩ := errorRecord_eq_iff.1 hsame
      cases hclear.symm.trans (he.symm.trans hset)
    · obtain ⟨-, hcode⟩ := errorRecord_eq_iff.1 hraised
      have hown : t.errcode = errorCode c := by simpa [hclear] using hcode
      exact ⟨w, rest, hin, hph, hown ▸ hmal⟩

end Sys2Proof.Machine
end

section
/-! PROOFS. The state right after reset (70_reset_and_hazards.md R108): START writes the values it already has, and the
two digest reads answer zeros. -/

namespace Sys2Proof.Machine

theorem clearSession_reset : clearSession State.reset = State.reset := rfl

/-- Reset leaves no response waiting (R107), so the words of a read are all there is. -/
theorem rspWrite_reset (ws : List Word) : rspWrite ws State.reset = { State.reset with rq := ws } := rfl

/-- Every nibble of a zero word is 0, so every character is '0' (R81). -/
theorem digestChar_zero (t : Fin 128) : digestChar (Vector.replicate 16 0) t = 0x30 := by
  have hnibble : (0 : Word).extractLsb' (28 - 4 * (t.val % 8)) 4 = 0 := BitVec.extractLsb'_zero
  rw [digestChar, Vector.getElem_replicate, hnibble]
  rfl

theorem hexWord_zero (m : Fin 32) : hexWord (Vector.replicate 16 0) m = 0x30303030 := by
  simp only [hexWord, digestChar_zero]
  rfl

theorem hexWords_zero : hexWords (Vector.replicate 16 0) = List.replicate 32 0x30303030 := by
  refine List.eq_replicate_iff.2 ⟨length_hexWords _, fun w hw => ?_⟩
  obtain ⟨m, -, rfl⟩ := List.mem_map.1 hw
  exact hexWord_zero m

/-- Settles O38: reset's session is the one START writes, and the reads answer what they answer of a zero H. -/
theorem resetReadsAsTheEmptyDigest : Obligations.ResetReadsAsTheEmptyDigest := by
  refine ⟨congrArg Host.Outcome.next clearSession_reset, ?rddig, ?rdhex⟩
  case rddig =>
    rw [← rspWrite_reset]
    exact congrArg (fun ws => Host.Outcome.next (rspWrite ws State.reset)) Vector.toList_replicate
  case rdhex =>
    rw [← rspWrite_reset]
    exact congrArg (fun ws => Host.Outcome.next (rspWrite ws State.reset)) hexWords_zero

end Sys2Proof.Machine
end
